-- ==== Sys2Proof/Word.lean ====
section
/-! DEFINITION. The word types of the AXChip8 core (spec 00 R5, R7, R9, R10): unsigned bit vectors of the widths the spec fixes. -/

namespace Sys2Proof

/-- A 4-bit field of an instruction word: a register index, a sprite height, a family (30 R71). -/
abbrev Nibble := BitVec 4

/-- A memory cell, a general register, a timer, an immediate byte (00 R5 `REG_W`, `TIMER_W`). -/
abbrev Byte := BitVec 8

/-- An address: `pc`, `I`, a stack entry, the immediate `nnn` (00 R5 `ADDR_W`, R7). -/
abbrev Addr := BitVec 12

/-- An instruction word (30 R70). -/
abbrev Word := BitVec 16

end Sys2Proof
end

