-- ==== Sys2Proof/Config.lean ====
section
/-! DEFINITION. What the spec leaves to the implementation (00 R6). The random byte and the font bytes are
free values; steps per frame and the tick rate belong to the host and appear nowhere in the model. -/

namespace Sys2Proof

/-- FREE VALUE (assumption 2). The value of the `n`th random byte drawn by `Cxkk` since the machine was made: `rand8()` of
42 R131, R132. The constant is opaque, so whatever is proved holds for every sequence of draws. -/
opaque Config.rand8 : Nat → Byte

/-- FREE VALUE (assumption 1). `FONT[a]` for `a` in 0 to 79, the open parameter of 00 R6 and 10 R33 (92 D21); no address above 79
is ever asked for. The constant is opaque, so whatever is proved holds for every font. -/
opaque Config.font : Nat → Byte

end Sys2Proof
end

