-- ==== Sys2Proof/Syntax.lean ====
section
/-! DEFINITION. The 34 instructions of 30 R76, one constructor a row in the order of the table, the report of an undecodable
word (60 R170) and the seven events by which the host drives the core (60 R182). -/

namespace Sys2Proof

/-- The instructions, with the operand fields of 30 R71: `x`, `y` name `V[x]`, `V[y]`; `kk` is an immediate byte, `nnn` an
absolute address, `n` a row count. `shr` and `shl` carry the `y` their words encode, which their operation ignores. -/
inductive Instr where
  /-- `00E0` clear the framebuffer. -/
  | cls
  /-- `00EE` return from subroutine. -/
  | ret
  /-- `1nnn` jump. -/
  | jp (nnn : Addr)
  /-- `2nnn` call subroutine. -/
  | call (nnn : Addr)
  /-- `3xkk` skip if `V[x] = kk`. -/
  | sei (x : Nibble) (kk : Byte)
  /-- `4xkk` skip if `V[x] ≠ kk`. -/
  | snei (x : Nibble) (kk : Byte)
  /-- `5xy0` skip if `V[x] = V[y]`. -/
  | ser (x y : Nibble)
  /-- `9xy0` skip if `V[x] ≠ V[y]`. -/
  | sner (x y : Nibble)
  /-- `6xkk` load immediate. -/
  | ldi (x : Nibble) (kk : Byte)
  /-- `7xkk` add immediate, no flag. -/
  | addi (x : Nibble) (kk : Byte)
  /-- `8xy0` copy. -/
  | mov (x y : Nibble)
  /-- `8xy1` bitwise OR. -/
  | or (x y : Nibble)
  /-- `8xy2` bitwise AND. -/
  | and (x y : Nibble)
  /-- `8xy3` bitwise exclusive OR. -/
  | xor (x y : Nibble)
  /-- `8xy4` add, VF = carry. -/
  | add (x y : Nibble)
  /-- `8xy5` subtract, VF = (`V[x] > V[y]`). -/
  | sub (x y : Nibble)
  /-- `8xy6` shift right, VF = the bit shifted out. -/
  | shr (x y : Nibble)
  /-- `8xy7` reverse subtract, VF = (`V[y] > V[x]`). -/
  | subn (x y : Nibble)
  /-- `8xyE` shift left, VF = the bit shifted out. -/
  | shl (x y : Nibble)
  /-- `Annn` load the address register. -/
  | lda (nnn : Addr)
  /-- `Bnnn` jump to `nnn + V[0]`. -/
  | jpv0 (nnn : Addr)
  /-- `Cxkk` masked random byte. -/
  | rnd (x : Nibble) (kk : Byte)
  /-- `Dxyn` draw a sprite. -/
  | drw (x y n : Nibble)
  /-- `Ex9E` skip if the key is pressed. -/
  | skp (x : Nibble)
  /-- `ExA1` skip if the key is not pressed. -/
  | sknp (x : Nibble)
  /-- `Fx07` read the delay timer. -/
  | lddt (x : Nibble)
  /-- `Fx0A` wait for a key. -/
  | wkey (x : Nibble)
  /-- `Fx15` set the delay timer. -/
  | stdt (x : Nibble)
  /-- `Fx18` set the sound timer. -/
  | stst (x : Nibble)
  /-- `Fx1E` add a register to the address register. -/
  | adda (x : Nibble)
  /-- `Fx29` point the address register at a font glyph. -/
  | font (x : Nibble)
  /-- `Fx33` store three decimal digits. -/
  | bcd (x : Nibble)
  /-- `Fx55` store `V[0]` to `V[x]`. -/
  | stm (x : Nibble)
  /-- `Fx65` load `V[0]` to `V[x]`. -/
  | ldm (x : Nibble)
  deriving DecidableEq, Repr

/-- The report `Undecodable(w, stage)` of 60 R170: the raw word and the decode stage that failed (60 R171). -/
structure Undecodable where
  /-- The word fetched. -/
  word : Word
  /-- The family whose second-stage decode found no match. -/
  stage : Nibble
  deriving DecidableEq, Repr

/-- The seven events of 60 R182. The arguments are the host's, of any size; `Event.wf` says which the core admits. -/
inductive Event where
  /-- Construct the machine anew (70 R200, R201). -/
  | reset
  /-- Copy a program image to 0x200 (60 R183). -/
  | load (bytes : List Byte)
  /-- Execute one instruction (40 R90). -/
  | step
  /-- Count both timers down (60 R185). -/
  | tick
  /-- A key goes down (60 R184). -/
  | keyPress (k : Nat)
  /-- A key comes up (60 R184). -/
  | keyRelease (k : Nat)
  /-- The host clears the dirty flag (60 R187). -/
  | dirtyClear
  deriving DecidableEq, Repr

end Sys2Proof
end

