-- ==== Sys2Proof/WellFormed.lean ====
section
/-! DEFINITION. Which instructions and which host events the core admits. The width of every instruction field is in its type and
30 R73 makes all values of every field legal, so `Instr.wf` checks ranges that hold of every instruction; the events carry host
data of any size, and `Event.wf` is the admission rule of 60 R183 and R184. -/

namespace Sys2Proof

/-- The operand fields of an instruction, each as its value and the bound 30 R71 gives it. -/
def Instr.fields : Instr → List (Nat × Nat)
  | .cls => []
  | .ret => []
  | .jp nnn => [(nnn.toNat, 4096)]
  | .call nnn => [(nnn.toNat, 4096)]
  | .sei x kk => [(x.toNat, 16), (kk.toNat, 256)]
  | .snei x kk => [(x.toNat, 16), (kk.toNat, 256)]
  | .ser x y => [(x.toNat, 16), (y.toNat, 16)]
  | .sner x y => [(x.toNat, 16), (y.toNat, 16)]
  | .ldi x kk => [(x.toNat, 16), (kk.toNat, 256)]
  | .addi x kk => [(x.toNat, 16), (kk.toNat, 256)]
  | .mov x y => [(x.toNat, 16), (y.toNat, 16)]
  | .or x y => [(x.toNat, 16), (y.toNat, 16)]
  | .and x y => [(x.toNat, 16), (y.toNat, 16)]
  | .xor x y => [(x.toNat, 16), (y.toNat, 16)]
  | .add x y => [(x.toNat, 16), (y.toNat, 16)]
  | .sub x y => [(x.toNat, 16), (y.toNat, 16)]
  | .shr x y => [(x.toNat, 16), (y.toNat, 16)]
  | .subn x y => [(x.toNat, 16), (y.toNat, 16)]
  | .shl x y => [(x.toNat, 16), (y.toNat, 16)]
  | .lda nnn => [(nnn.toNat, 4096)]
  | .jpv0 nnn => [(nnn.toNat, 4096)]
  | .rnd x kk => [(x.toNat, 16), (kk.toNat, 256)]
  | .drw x y n => [(x.toNat, 16), (y.toNat, 16), (n.toNat, 16)]
  | .skp x => [(x.toNat, 16)]
  | .sknp x => [(x.toNat, 16)]
  | .lddt x => [(x.toNat, 16)]
  | .wkey x => [(x.toNat, 16)]
  | .stdt x => [(x.toNat, 16)]
  | .stst x => [(x.toNat, 16)]
  | .adda x => [(x.toNat, 16)]
  | .font x => [(x.toNat, 16)]
  | .bcd x => [(x.toNat, 16)]
  | .stm x => [(x.toNat, 16)]
  | .ldm x => [(x.toNat, 16)]

/-- A field holds a value below its bound. -/
def fieldInRange (f : Nat × Nat) : Bool := decide (f.1 < f.2)

/-- Every operand field is in range (30 R73: every value of every field is legal). -/
def Instr.wf (i : Instr) : Bool := i.fields.all fieldInRange

/-- A key index names one of the 16 keys (60 R184, D23). -/
def keyIndexOk (k : Nat) : Bool := decide (k < 16)

/-- A program image fits `PROG_MAX` = 3584 bytes (00 R5, 60 R183, D17). -/
def imageOk (bytes : List Byte) : Bool := decide (bytes.length ≤ 3584)

/-- The events the core admits; the others are refused. -/
def Event.wf : Event → Bool
  | .reset => true
  | .load bytes => imageOk bytes
  | .step => true
  | .tick => true
  | .keyPress k => keyIndexOk k
  | .keyRelease k => keyIndexOk k
  | .dirtyClear => true

end Sys2Proof
end

