-- ==== Sys2Proof/Decode.lean ====
section
/-! DEFINITION. Decoding and encoding (spec file 30): the fields of a word, the two-level decode of R74 and R77, decoding of a
byte sequence (R51, R70), the encoder, and the opcode map of R76 as a table of masks and matches. -/

namespace Sys2Proof

/-- `w[15:12]`, the family selector (30 R71). -/
def opOf (w : Word) : Nibble := w.extractLsb' 12 4

/-- `w[11:8]`, the first register index (30 R71). -/
def xOf (w : Word) : Nibble := w.extractLsb' 8 4

/-- `w[7:4]`, the second register index (30 R71). -/
def yOf (w : Word) : Nibble := w.extractLsb' 4 4

/-- `w[3:0]`, the sprite height or secondary selector (30 R71). -/
def nOf (w : Word) : Nibble := w.extractLsb' 0 4

/-- `w[7:0]`, the immediate byte or secondary selector (30 R71). -/
def kkOf (w : Word) : Byte := w.extractLsb' 0 8

/-- `w[11:0]`, the immediate address (30 R71). -/
def nnnOf (w : Word) : Addr := w.extractLsb' 0 12

/-- Family 0: the second selector is `w[11:0]` (30 R77). -/
def decodeFamily0 (w : Word) : Option Instr :=
  match (nnnOf w).toNat with
  | 0x0E0 => some .cls
  | 0x0EE => some .ret
  | _ => none

/-- Family 5: the second selector is `w[3:0]` (30 R74, R77, C5). -/
def decodeFamily5 (w : Word) : Option Instr :=
  match (nOf w).toNat with
  | 0x0 => some (.ser (xOf w) (yOf w))
  | _ => none

/-- Family 8: the second selector is `w[3:0]` (30 R77). -/
def decodeFamily8 (w : Word) : Option Instr :=
  match (nOf w).toNat with
  | 0x0 => some (.mov (xOf w) (yOf w))
  | 0x1 => some (.or (xOf w) (yOf w))
  | 0x2 => some (.and (xOf w) (yOf w))
  | 0x3 => some (.xor (xOf w) (yOf w))
  | 0x4 => some (.add (xOf w) (yOf w))
  | 0x5 => some (.sub (xOf w) (yOf w))
  | 0x6 => some (.shr (xOf w) (yOf w))
  | 0x7 => some (.subn (xOf w) (yOf w))
  | 0xE => some (.shl (xOf w) (yOf w))
  | _ => none

/-- Family 9: the second selector is `w[3:0]` (30 R74, R77, C5). -/
def decodeFamily9 (w : Word) : Option Instr :=
  match (nOf w).toNat with
  | 0x0 => some (.sner (xOf w) (yOf w))
  | _ => none

/-- Family E: the second selector is `w[7:0]` (30 R77). -/
def decodeFamilyE (w : Word) : Option Instr :=
  match (kkOf w).toNat with
  | 0x9E => some (.skp (xOf w))
  | 0xA1 => some (.sknp (xOf w))
  | _ => none

/-- Family F: the second selector is `w[7:0]` (30 R77). -/
def decodeFamilyF (w : Word) : Option Instr :=
  match (kkOf w).toNat with
  | 0x07 => some (.lddt (xOf w))
  | 0x0A => some (.wkey (xOf w))
  | 0x15 => some (.stdt (xOf w))
  | 0x18 => some (.stst (xOf w))
  | 0x1E => some (.adda (xOf w))
  | 0x29 => some (.font (xOf w))
  | 0x33 => some (.bcd (xOf w))
  | 0x55 => some (.stm (xOf w))
  | 0x65 => some (.ldm (xOf w))
  | _ => none

/-- The instruction a word encodes, or none for an undecodable word: the two stages of 30 R74, the map of R77. -/
def decodeWord (w : Word) : Option Instr :=
  match (opOf w).toNat with
  | 0x0 => decodeFamily0 w
  | 0x1 => some (.jp (nnnOf w))
  | 0x2 => some (.call (nnnOf w))
  | 0x3 => some (.sei (xOf w) (kkOf w))
  | 0x4 => some (.snei (xOf w) (kkOf w))
  | 0x5 => decodeFamily5 w
  | 0x6 => some (.ldi (xOf w) (kkOf w))
  | 0x7 => some (.addi (xOf w) (kkOf w))
  | 0x8 => decodeFamily8 w
  | 0x9 => decodeFamily9 w
  | 0xA => some (.lda (nnnOf w))
  | 0xB => some (.jpv0 (nnnOf w))
  | 0xC => some (.rnd (xOf w) (kkOf w))
  | 0xD => some (.drw (xOf w) (yOf w) (nOf w))
  | 0xE => decodeFamilyE w
  | 0xF => decodeFamilyF w
  | _ => none

/-- The report a word that does not decode gives: the raw word and its family as the stage (60 R170, R171). -/
def undecodable (w : Word) : Undecodable := { word := w, stage := opOf w }

/-- Why a byte sequence gives no instruction. -/
inductive DecodeError where
  /-- Fewer than the two bytes every instruction has (30 R70). -/
  | truncated
  /-- The word matches no row of 30 R76. -/
  | undecodable (u : Undecodable)
  deriving DecidableEq, Repr

/-- Two consecutive bytes as one big-endian word (20 R51). -/
def wordOf (hi lo : Byte) : Word := hi ++ lo

/-- Read one instruction from the front of a byte sequence and give the rest back (20 R51, 30 R70). -/
def decode : List Byte → Except DecodeError (Instr × List Byte)
  | hi :: lo :: rest =>
    match decodeWord (wordOf hi lo) with
    | some i => .ok (i, rest)
    | none => .error (.undecodable (undecodable (wordOf hi lo)))
  | _ => .error .truncated

/-- Format A of 30 R72. -/
def formatA (op : Nibble) (nnn : Addr) : Word := op ++ nnn

/-- Format XK of 30 R72. -/
def formatXK (op x : Nibble) (kk : Byte) : Word := (op ++ x : Byte) ++ kk

/-- Formats XY and XYN of 30 R72. -/
def formatXYN (op x y n : Nibble) : Word := (op ++ x : Byte) ++ (y ++ n : Byte)

/-- The word of an instruction, from the formats of 30 R72 and the patterns of R76. -/
def encode : Instr → Word
  | .cls => 0x00E0#16
  | .ret => 0x00EE#16
  | .jp nnn => formatA 0x1#4 nnn
  | .call nnn => formatA 0x2#4 nnn
  | .sei x kk => formatXK 0x3#4 x kk
  | .snei x kk => formatXK 0x4#4 x kk
  | .ser x y => formatXYN 0x5#4 x y 0x0#4
  | .sner x y => formatXYN 0x9#4 x y 0x0#4
  | .ldi x kk => formatXK 0x6#4 x kk
  | .addi x kk => formatXK 0x7#4 x kk
  | .mov x y => formatXYN 0x8#4 x y 0x0#4
  | .or x y => formatXYN 0x8#4 x y 0x1#4
  | .and x y => formatXYN 0x8#4 x y 0x2#4
  | .xor x y => formatXYN 0x8#4 x y 0x3#4
  | .add x y => formatXYN 0x8#4 x y 0x4#4
  | .sub x y => formatXYN 0x8#4 x y 0x5#4
  | .shr x y => formatXYN 0x8#4 x y 0x6#4
  | .subn x y => formatXYN 0x8#4 x y 0x7#4
  | .shl x y => formatXYN 0x8#4 x y 0xE#4
  | .lda nnn => formatA 0xA#4 nnn
  | .jpv0 nnn => formatA 0xB#4 nnn
  | .rnd x kk => formatXK 0xC#4 x kk
  | .drw x y n => formatXYN 0xD#4 x y n
  | .skp x => formatXK 0xE#4 x 0x9E#8
  | .sknp x => formatXK 0xE#4 x 0xA1#8
  | .lddt x => formatXK 0xF#4 x 0x07#8
  | .wkey x => formatXK 0xF#4 x 0x0A#8
  | .stdt x => formatXK 0xF#4 x 0x15#8
  | .stst x => formatXK 0xF#4 x 0x18#8
  | .adda x => formatXK 0xF#4 x 0x1E#8
  | .font x => formatXK 0xF#4 x 0x29#8
  | .bcd x => formatXK 0xF#4 x 0x33#8
  | .stm x => formatXK 0xF#4 x 0x55#8
  | .ldm x => formatXK 0xF#4 x 0x65#8

/-- An instruction as it lies in memory: the high byte first (20 R51, 30 R71). -/
def encodeBytes (i : Instr) : List Byte :=
  [(encode i).extractLsb' 8 8, (encode i).extractLsb' 0 8]

/-- The mnemonic of an instruction (30 R76, R82). -/
def Instr.mnemonic : Instr → String
  | .cls => "CLS"
  | .ret => "RET"
  | .jp _ => "JP"
  | .call _ => "CALL"
  | .sei _ _ => "SEI"
  | .snei _ _ => "SNEI"
  | .ser _ _ => "SER"
  | .sner _ _ => "SNER"
  | .ldi _ _ => "LDI"
  | .addi _ _ => "ADDI"
  | .mov _ _ => "MOV"
  | .or _ _ => "OR"
  | .and _ _ => "AND"
  | .xor _ _ => "XOR"
  | .add _ _ => "ADD"
  | .sub _ _ => "SUB"
  | .shr _ _ => "SHR"
  | .subn _ _ => "SUBN"
  | .shl _ _ => "SHL"
  | .lda _ => "LDA"
  | .jpv0 _ => "JPV0"
  | .rnd _ _ => "RND"
  | .drw _ _ _ => "DRW"
  | .skp _ => "SKP"
  | .sknp _ => "SKNP"
  | .lddt _ => "LDDT"
  | .wkey _ => "WKEY"
  | .stdt _ => "STDT"
  | .stst _ => "STST"
  | .adda _ => "ADDA"
  | .font _ => "FONT"
  | .bcd _ => "BCD"
  | .stm _ => "STM"
  | .ldm _ => "LDM"

/-- A row of the opcode map of 30 R76. -/
structure OpcodeRow where
  /-- The mnemonic column. -/
  mnemonic : String
  /-- The bits the pattern fixes. -/
  mask : Word
  /-- Their values. -/
  value : Word
  deriving DecidableEq, Repr

/-- A word matches a row exactly when `w & mask = match` (30 R75). -/
def OpcodeRow.covers (r : OpcodeRow) (w : Word) : Bool := w &&& r.mask == r.value

/-- Rows 1 to 17 of 30 R76. -/
def opcodeRowsLow : List OpcodeRow :=
  [⟨"CLS", 0xFFFF#16, 0x00E0#16⟩, ⟨"RET", 0xFFFF#16, 0x00EE#16⟩, ⟨"JP", 0xF000#16, 0x1000#16⟩,
   ⟨"CALL", 0xF000#16, 0x2000#16⟩, ⟨"SEI", 0xF000#16, 0x3000#16⟩, ⟨"SNEI", 0xF000#16, 0x4000#16⟩,
   ⟨"SER", 0xF00F#16, 0x5000#16⟩, ⟨"SNER", 0xF00F#16, 0x9000#16⟩, ⟨"LDI", 0xF000#16, 0x6000#16⟩,
   ⟨"ADDI", 0xF000#16, 0x7000#16⟩, ⟨"MOV", 0xF00F#16, 0x8000#16⟩, ⟨"OR", 0xF00F#16, 0x8001#16⟩,
   ⟨"AND", 0xF00F#16, 0x8002#16⟩, ⟨"XOR", 0xF00F#16, 0x8003#16⟩, ⟨"ADD", 0xF00F#16, 0x8004#16⟩,
   ⟨"SUB", 0xF00F#16, 0x8005#16⟩, ⟨"SHR", 0xF00F#16, 0x8006#16⟩]

/-- Rows 18 to 34 of 30 R76. -/
def opcodeRowsHigh : List OpcodeRow :=
  [⟨"SUBN", 0xF00F#16, 0x8007#16⟩, ⟨"SHL", 0xF00F#16, 0x800E#16⟩, ⟨"LDA", 0xF000#16, 0xA000#16⟩,
   ⟨"JPV0", 0xF000#16, 0xB000#16⟩, ⟨"RND", 0xF000#16, 0xC000#16⟩, ⟨"DRW", 0xF000#16, 0xD000#16⟩,
   ⟨"SKP", 0xF0FF#16, 0xE09E#16⟩, ⟨"SKNP", 0xF0FF#16, 0xE0A1#16⟩, ⟨"LDDT", 0xF0FF#16, 0xF007#16⟩,
   ⟨"WKEY", 0xF0FF#16, 0xF00A#16⟩, ⟨"STDT", 0xF0FF#16, 0xF015#16⟩, ⟨"STST", 0xF0FF#16, 0xF018#16⟩,
   ⟨"ADDA", 0xF0FF#16, 0xF01E#16⟩, ⟨"FONT", 0xF0FF#16, 0xF029#16⟩, ⟨"BCD", 0xF0FF#16, 0xF033#16⟩,
   ⟨"STM", 0xF0FF#16, 0xF055#16⟩, ⟨"LDM", 0xF0FF#16, 0xF065#16⟩]

/-- The 34 rows of 30 R76. -/
def opcodeRows : List OpcodeRow := opcodeRowsLow ++ opcodeRowsHigh

/-- The instruction the decoder reads from `nbits` bits `w`, numbered as spec/opcode_table.json numbers them: the word is laid
out big-endian, as 20 R51 stores it, and given to `decode`. -/
def decodeTableWord (nbits w : Nat) : Option Instr :=
  match decode [BitVec.ofNat 8 (w % 2 ^ nbits / 256), BitVec.ofNat 8 (w % 2 ^ nbits)] with
  | .ok (i, _) => some i
  | .error _ => none

end Sys2Proof
end

