-- ==== Sys2Proof/Machine/State.lean ====
section
/-! DEFINITION. The state of the core (10 R20), the reasons a step can stop (60 R173 to R179), the refusals, and the state after
reset (10 R38, 70 R200). -/

namespace Sys2Proof.Machine

/-- The cells of `MEM` that differ from the reset contents: addresses strictly rising, no cell equal to `Memory.unlisted`. -/
abbrev Memory := List Host.Cell

/-- The complete state of the core, the tuple of 10 R20, and two fields of the model's own (`draws`, `report`). -/
structure State where
  /-- `V[0..15]`, the general registers; `V[15]` is VF, the one flag (10 R21, R22). -/
  v : Vector Byte 16
  /-- The program counter (10 R23). -/
  pc : Addr
  /-- `I`, the address register (10 R25). -/
  ireg : Addr
  /-- `STACK[0..15]`, the call stack (10 R26). -/
  stack : Vector Addr 16
  /-- `SP`, the number of live stack entries, 0 to 16 (10 R27). -/
  sp : BitVec 5
  /-- `DT`, the delay timer (10 R28). -/
  dt : Byte
  /-- `ST`, the sound timer (10 R29). -/
  st : Byte
  /-- `KEY[0..15]`, true where the key is pressed (10 R35). -/
  keys : Vector Bool 16
  /-- `FB[0..2047]`, cell `p` is bit `p` (10 R34). -/
  fb : BitVec 2048
  /-- `DIRTY` (10 R30). -/
  dirty : Bool
  /-- `BLOCKED`, the mode bit: true is blocked-on-key (10 R31). -/
  blocked : Bool
  /-- `MEM[0..4095]` (10 R32). -/
  mem : Memory
  /-- The model's own (assumption 2): how many random bytes have been drawn. -/
  draws : Nat
  /-- The model's own (assumption 3): what the most recent step that did not fault reported, none when it completed (60 R189). -/
  report : Option Undecodable
  deriving DecidableEq, Repr

/-- The faults of 60 R173 to R179. A fault leaves every state element as it was before the step (60 R172), so the outcome
carries the name and the argument and no state. All of them are safe: the model stops where the spec gives no further effect. -/
inductive Fault where
  /-- Raised by `2nnn` when 16 calls are nested already (60 R173). Safe. -/
  | stackOverflow
  /-- Raised by `00EE` with no call outstanding (60 R174). Safe. -/
  | stackUnderflow
  /-- Raised by the fetch of any step when the second byte of the word is above 0xFFF (60 R175). Safe. -/
  | fetchOutOfRange (pc : Nat)
  /-- Raised by any instruction whose new `pc` is above 0xFFF (60 R176). Safe. -/
  | pcOutOfRange (t : Nat)
  /-- Raised by `Fx33`, `Fx55`, `Fx65`, `Dxyn` when the highest address they touch is above 0xFFF (60 R177). Safe. -/
  | memoryOutOfRange (a : Nat)
  /-- Raised by `Ex9E`, `ExA1` when the register holds no key index (60 R179). Safe. -/
  | keyIndexOutOfRange (k : Nat)
  deriving DecidableEq, Repr

/-- What the model does not admit. -/
inductive Refusal where
  /-- Raised by an arm of `exec` whose instruction has no meaning yet; no arm uses it. Safe. -/
  | notModelled (mnemonic : String)
  /-- Raised by the `load` event for an image longer than 3584 bytes (60 R183, D17). Safe. -/
  | imageTooLong (len : Nat)
  /-- Raised by the key events for an index above 15 (60 R184, D23). Safe. -/
  | keyEventIndex (k : Nat)
  /-- Raised by the `pixel` output for an index above 2047 (60 R186, D23). Safe. -/
  | pixelIndex (p : Nat)
  deriving DecidableEq, Repr

/-- The outcome of a step of this machine. -/
abbrev Result := Host.Outcome State Fault Refusal

/-- The machine right after reset (10 R38, 70 R200): every register, stack entry, key, pixel, timer and flag 0, `pc` at 0x200,
memory at its reset contents (nothing listed; the font region is the parameter `FONT`, assumption 1). `draws` and `report`
are the model's own (assumptions 2 and 3). -/
def State.reset : State where
  v := Vector.replicate 16 0#8
  pc := 0x200#12
  ireg := 0#12
  stack := Vector.replicate 16 0#12
  sp := 0#5
  dt := 0#8
  st := 0#8
  keys := Vector.replicate 16 false
  fb := 0#2048
  dirty := false
  blocked := false
  mem := []
  draws := 0
  report := none

end Sys2Proof.Machine
end

