-- ==== Sys2Proof/Machine/Font.lean ====
section
/-! DEFINITION. The font that reset copies to 0x000-0x04F (10 R33, 70 R200). Its 80 bytes are an open parameter (00 R6, 92 D21):
the meanings read the free value `Config.font`, and the conventional table is a hypothesis a claim may take (assumption 1). -/

namespace Sys2Proof.Machine

/-- The default table 10 R33 prints, which the spec marks as general knowledge: glyph `d` is the five bytes from `5 * d`, top row
first. No meaning reads it; `DefaultFont` is its one use. -/
def fontTable : List Byte :=
  [0xF0#8, 0x90#8, 0x90#8, 0x90#8, 0xF0#8,  0x20#8, 0x60#8, 0x20#8, 0x20#8, 0x70#8,
   0xF0#8, 0x10#8, 0xF0#8, 0x80#8, 0xF0#8,  0xF0#8, 0x10#8, 0xF0#8, 0x10#8, 0xF0#8,
   0x90#8, 0x90#8, 0xF0#8, 0x10#8, 0x10#8,  0xF0#8, 0x80#8, 0xF0#8, 0x10#8, 0xF0#8,
   0xF0#8, 0x80#8, 0xF0#8, 0x90#8, 0xF0#8,  0xF0#8, 0x10#8, 0x20#8, 0x40#8, 0x40#8,
   0xF0#8, 0x90#8, 0xF0#8, 0x90#8, 0xF0#8,  0xF0#8, 0x90#8, 0xF0#8, 0x10#8, 0xF0#8,
   0xF0#8, 0x90#8, 0xF0#8, 0x90#8, 0x90#8,  0xE0#8, 0x90#8, 0xE0#8, 0x90#8, 0xE0#8,
   0xF0#8, 0x80#8, 0x80#8, 0x80#8, 0xF0#8,  0xE0#8, 0x90#8, 0x90#8, 0x90#8, 0xE0#8,
   0xF0#8, 0x80#8, 0xF0#8, 0x80#8, 0xF0#8,  0xF0#8, 0x80#8, 0xF0#8, 0x80#8, 0x80#8]

/-- `FONT[a]`; nothing reads it at an address above 0x04F (10 R33). -/
def fontByte (a : Nat) : Byte := Config.font a

/-- The default instantiation of the parameter `FONT` (10 R33). A claim about which pixels a glyph lights takes it as a hypothesis,
as 92 D21 asks. -/
def DefaultFont : Prop := ∀ a < 80, fontByte a = fontTable.getD a 0#8

end Sys2Proof.Machine
end

