-- ==== Sys2Proof/Machine/Ops.lean ====
section
/-! DEFINITION. The named operations over memory and state that every meaning is written with: reading and writing a byte, a
register, the stack, the keys, the timers; the checks and faults of 40 R93 and 20 R56; the four ways a step ends (completed,
held by the key wait, undecodable report, fault); the instruction fetch of 40 R91. -/

namespace Sys2Proof.Machine

/-! ### Memory (20 R50, R53, R56, R57) -/

/-- What a byte that nothing has written reads as: the reset contents, `FONT[a]` at 0x000-0x04F and 0 above (10 R38, 20 R57). -/
def Memory.unlisted (a : Nat) : Byte := if a < 80 then fontByte a else 0#8

/-- The byte at address `a`. -/
def Memory.read : Memory → Nat → Byte
  | [], a => Memory.unlisted a
  | (c, b) :: m, a => if a = c then b else Memory.read m a

/-- Put the cell `(a, b)` in front of `m`, unless `b` is what `a` reads as unlisted. -/
def Memory.cons (a : Nat) (b : Byte) (m : Memory) : Memory := if b = Memory.unlisted a then m else (a, b) :: m

/-- Set the cell at `a` in a list sorted by address, keeping the canonical form. -/
def Memory.insert (a : Nat) (b : Byte) : Memory → Memory
  | [] => Memory.cons a b []
  | (c, d) :: m =>
    if a < c then Memory.cons a b ((c, d) :: m)
    else if a = c then Memory.cons a b m
    else (c, d) :: Memory.insert a b m

/-- `MemWrite(a, 1, b)` of 00 R12. There is no byte above 0xFFF to write; every caller has checked its range first (20 R56). -/
def Memory.write (m : Memory) (a : Nat) (b : Byte) : Memory := if a ≤ 0xFFF then Memory.insert a b m else m

/-- Write consecutive bytes in ascending order from `a` (20 R52). -/
def Memory.writeBytes (m : Memory) (a : Nat) : List Byte → Memory
  | [] => m
  | b :: bs => Memory.writeBytes (Memory.write m a b) (a + 1) bs

/-- The canonical form: addresses strictly rising and inside the address space, no cell equal to what it reads as unlisted. -/
abbrev Memory.wf (m : Memory) : Prop :=
  m.Pairwise (fun p q => p.1 < q.1) ∧ ∀ p ∈ m, p.1 ≤ 0xFFF ∧ p.2 ≠ Memory.unlisted p.1

/-! ### Reading and writing the state -/

/-- `V[x]` (10 R21). -/
def State.reg (s : State) (x : Nibble) : Byte := s.v[x.toNat]'x.isLt

/-- `V[x] <- b`. -/
def State.setReg (s : State) (x : Nibble) (b : Byte) : State := { s with v := s.v.set x.toNat b x.isLt }

/-- `V[15] <- (if f then 1 else 0)`, the flag output (10 R22). -/
def State.setFlag (s : State) (f : Bool) : State := s.setReg 0xF#4 (if f then 1#8 else 0#8)

/-- `I <- a` (10 R25). -/
def State.setI (s : State) (a : Addr) : State := { s with ireg := a }

/-- `DT <- b` (10 R28). -/
def State.setDt (s : State) (b : Byte) : State := { s with dt := b }

/-- `ST <- b` (10 R29). -/
def State.setSt (s : State) (b : Byte) : State := { s with st := b }

/-- `FB <- f` (10 R34). -/
def State.setFb (s : State) (f : BitVec 2048) : State := { s with fb := f }

/-- `DIRTY <- d` (10 R30). -/
def State.setDirty (s : State) (d : Bool) : State := { s with dirty := d }

/-- `FB[p]` (10 R34). -/
def State.cell (s : State) (p : Nat) : Bool := s.fb.getLsbD p

/-- `KEY[k]` for `k` in 0 to 15 (10 R35). -/
def State.key (s : State) (k : Nat) : Bool := s.keys[k]?.getD false

/-- `KEY[k] <- b`. -/
def State.setKey (s : State) (k : Nat) (b : Bool) : State := { s with keys := s.keys.setIfInBounds k b }

/-- The least `k` in 0 to 15 with `KEY[k] = 1`, none when no key is pressed (45 R162). -/
def State.lowestKey (s : State) : Option Nat := (List.range 16).find? s.key

/-- `STACK[k]` for `k` in 0 to 15 (10 R26). -/
def State.stackAt (s : State) (k : Nat) : Addr := s.stack[k]?.getD 0#12

/-- `STACK[SP] <- a; SP <- SP + 1` (10 R27). -/
def State.push (s : State) (a : Addr) : State :=
  { s with stack := s.stack.setIfInBounds s.sp.toNat a, sp := s.sp + 1#5 }

/-- `SP <- SP - 1`; the popped entry keeps its value (10 R26, R27). -/
def State.pop (s : State) : State := { s with sp := s.sp - 1#5 }

/-- Store consecutive bytes in memory from `a`. -/
def State.store (s : State) (a : Nat) (bs : List Byte) : State := { s with mem := s.mem.writeBytes a bs }

/-- `V[i] <- MEM[a + i]` for `i = 0` to `n - 1`, ascending (43 R145). -/
def State.loadRegs (s : State) (a : Nat) : Nat → State
  | 0 => s
  | n + 1 => (State.loadRegs s a n).setReg (BitVec.ofNat 4 n) (s.mem.read (a + n))

/-- Count one random draw as taken (assumption 2). -/
def State.drawn (s : State) : State := { s with draws := s.draws + 1 }

/-! ### How a step ends -/

/-- TAKING A FAULT (60 R172): the step ends, every write of it is discarded, the fault's name and argument are reported, control
goes nowhere. There is no handler, no saved state and so no return (60 R191). -/
def raise (f : Fault) : Result := .fault f

/-- `CheckPc(t)` of 40 R93, before the rest `k` of the instruction. -/
def checkPc (t : Nat) (k : Result) : Result := if t > 0xFFF then raise (.pcOutOfRange t) else k

/-- The range check of 20 R56 for a block whose highest address is `a`. -/
def checkMem (a : Nat) (k : Result) : Result := if a > 0xFFF then raise (.memoryOutOfRange a) else k

/-- The instruction's last write, `pc <- t`, and the status phase of a step that completes: `BLOCKED <- 0` and no report (40 R93,
R95, 60 R189). -/
def complete (t : Nat) (s : State) : Result :=
  .next { s with pc := BitVec.ofNat 12 t, blocked := false, report := none }

/-- The key wait goes on: `pc` and every register kept, `BLOCKED <- 1` (45 R162, 40 R95). -/
def hold (s : State) : Result := .next { s with blocked := true, report := none }

/-- The undecodable report (60 R170, 40 R92): nothing changes but `BLOCKED <- 0`, and the report is recorded (assumption 3). -/
def reject (w : Word) (s : State) : Result := .next { s with blocked := false, report := some (undecodable w) }

/-- `CheckPc(t); …; pc <- t` around an effect that has turned the state into `s`. -/
def goTo (t : Nat) (s : State) : Result := checkPc t (complete t s)

/-- The address of the next instruction, `pc + 2`. -/
def State.nextPc (s : State) : Nat := s.pc.toNat + 2

/-- The fixed `+2` of most instructions, around an effect that turns `s` into `s'`; `pc` still holds the address fetched from. -/
def fallThrough (s s' : State) : Result := goTo s.nextPc s'

/-- A skip: `pc + 4` when the condition holds, `pc + 2` otherwise (41 R109). -/
def skipIf (c : Bool) (s : State) : Result := goTo (if c then s.pc.toNat + 4 else s.nextPc) s

/-! ### Fetch -/

/-- The instruction fetch (40 R91, 20 R51): two big-endian bytes at `pc`, whatever its parity. -/
def fetch (s : State) : Except Fault Word :=
  if s.pc.toNat + 1 > 0xFFF then .error (.fetchOutOfRange s.pc.toNat)
  else .ok (wordOf (s.mem.read s.pc.toNat) (s.mem.read (s.pc.toNat + 1)))

end Sys2Proof.Machine
end

