-- ==== Sys2Proof/Machine/Operands.lean ====
section
/-! DEFINITION. The operand forms of the instruction set (30 R73, 43 R146): a register named by a field, an immediate, the offset
register `V[0]`, a block of memory through `I`, a sprite and the framebuffer cells it targets. -/

namespace Sys2Proof.Machine

/-- The offset register of `Bnnn`: always `V[0]` (41 R104). -/
def State.offset (s : State) : Nat := (s.reg 0x0#4).toNat

/-- The effective address `I + k`, not reduced (43 R146). -/
def State.effAddr (s : State) (k : Nat) : Nat := s.ireg.toNat + k

/-- `V[0]` to `V[x]`, ascending (43 R144). -/
def State.firstRegs (s : State) (x : Nibble) : List Byte := s.v.toList.take (x.toNat + 1)

/-- Hundreds, tens and units of a byte, each as a byte (43 R143). -/
def decimalDigits (b : Byte) : List Byte :=
  [BitVec.ofNat 8 (b.toNat / 100), BitVec.ofNat 8 (b.toNat / 10 % 10), BitVec.ofNat 8 (b.toNat % 10)]

/-- The sprite bit of column `col`: column 0 is bit 7 (44 R152, D22). -/
def spriteBit (b : Byte) (col : Nat) : Bool := b.getLsbD (7 - col)

/-- The framebuffer cell of sprite bit (`row`, `col`) drawn at (`vx`, `vy`) (44 R153, C2). -/
def cellIndex (vx vy : Byte) (row col : Nat) : Nat := ((vx.toNat + col) + (vy.toNat + row) * 64) % 2048

/-- The cells the set bits of one sprite row target, left to right (44 R151). -/
def rowCells (vx vy : Byte) (row : Nat) (b : Byte) : List Nat :=
  ((List.range 8).filter (spriteBit b)).map (cellIndex vx vy row)

/-- The cells a sprite of `n` rows at `MEM[a]` targets, row by row (44 R151). -/
def spriteCells (m : Memory) (a : Nat) (vx vy : Byte) (n : Nat) : List Nat :=
  (List.range n).flatMap (fun row => rowCells vx vy row (m.read (a + row)))

/-- `FB[p] <- FB[p] ^ 1`. -/
def flipCell (fb : BitVec 2048) (p : Nat) : BitVec 2048 := fb ^^^ BitVec.twoPow 2048 p

/-- XOR a list of cells in order, keeping whether any of them went from 1 to 0 (44 R151). -/
def drawCells (fb : BitVec 2048) (hit : Bool) : List Nat → BitVec 2048 × Bool
  | [] => (fb, hit)
  | p :: ps => drawCells (flipCell fb p) (hit || fb.getLsbD p) ps

end Sys2Proof.Machine
end

