-- ==== Sys2Proof/Machine/Flags.lean ====
section
/-! DEFINITION. Every flag computation (10 R22) and the two-write form of the flag instructions (00 R13, D2). The collision flag of
`Dxyn` is the second component of `drawCells`. -/

namespace Sys2Proof.Machine

/-- Carry out of an 8-bit sum (42 R126). -/
def carryAdd (a b : Byte) : Bool := decide (a.toNat + b.toNat > 255)

/-- Strictly greater, the flag of the subtractions (42 R127, R129, C3). -/
def greater (a b : Byte) : Bool := decide (a.toNat > b.toNat)

/-- Bit 0, shifted out to the right (42 R128). -/
def lowBit (a : Byte) : Bool := a.getLsbD 0

/-- Bit 7, shifted out to the left (42 R130). -/
def highBit (a : Byte) : Bool := a.getLsbD 7

/-- Carry out of the 12-bit sum of `Fx1E` (43 R141). -/
def carryAddr (a : Addr) (b : Byte) : Bool := decide (a.toNat + b.toNat > 0xFFF)

/-- `VF <- f`, then `V[x] <- g`, where `g` reads the state AFTER the flag is written (00 R13, D2; assumption 4). -/
def flagThenReg (f : Bool) (x : Nibble) (g : State → Byte) (s : State) : State :=
  (s.setFlag f).setReg x (g (s.setFlag f))

end Sys2Proof.Machine
end

