-- ==== Sys2Proof/Machine/Address.lean ====
section
/-! DEFINITION. The address register and memory instructions (spec file 43). -/

namespace Sys2Proof.Machine

/-- `Annn` LDA (43 R140). -/
def execLda (nnn : Addr) (s : State) : Result := fallThrough s (s.setI nnn)

/-- `I + V[x]` modulo 4096, read in the state given (43 R141, C4). -/
def State.addrSum (s : State) (x : Nibble) : Addr := s.ireg + (s.reg x).setWidth 12

/-- `Fx1E` ADDA (43 R141): VF first, then the sum, which reads `V[x]` after the flag is written (D2). -/
def execAdda (x : Nibble) (s : State) : Result :=
  let s1 := s.setFlag (carryAddr s.ireg (s.reg x))
  fallThrough s (s1.setI (s1.addrSum x))

/-- `Fx29` FONT (43 R142): all 8 bits of `V[x]`, times 5. -/
def execFont (x : Nibble) (s : State) : Result :=
  fallThrough s (s.setI (BitVec.ofNat 12 ((s.reg x).toNat * 5)))

/-- `Fx33` BCD (43 R143). -/
def execBcd (x : Nibble) (s : State) : Result :=
  checkPc s.nextPc (checkMem (s.effAddr 2)
    (complete s.nextPc (s.store (s.effAddr 0) (decimalDigits (s.reg x)))))

/-- `Fx55` STM (43 R144). -/
def execStm (x : Nibble) (s : State) : Result :=
  checkPc s.nextPc (checkMem (s.effAddr x.toNat)
    (complete s.nextPc (s.store (s.effAddr 0) (s.firstRegs x))))

/-- `Fx65` LDM (43 R145). -/
def execLdm (x : Nibble) (s : State) : Result :=
  checkPc s.nextPc (checkMem (s.effAddr x.toNat)
    (complete s.nextPc (s.loadRegs (s.effAddr 0) (x.toNat + 1))))

end Sys2Proof.Machine
end

