-- ==== Sys2Proof/Machine/Alu.lean ====
section
/-! DEFINITION. Register loads, the 8-bit ALU and the random byte (spec file 42). -/

namespace Sys2Proof.Machine

/-- `6xkk` LDI (42 R120). -/
def execLdi (x : Nibble) (kk : Byte) (s : State) : Result := fallThrough s (s.setReg x kk)

/-- `7xkk` ADDI (42 R121): no flag. -/
def execAddi (x : Nibble) (kk : Byte) (s : State) : Result := fallThrough s (s.setReg x (s.reg x + kk))

/-- `8xy0` MOV (42 R122). -/
def execMov (x y : Nibble) (s : State) : Result := fallThrough s (s.setReg x (s.reg y))

/-- `8xy1` OR (42 R123): no flag. -/
def execOr (x y : Nibble) (s : State) : Result := fallThrough s (s.setReg x (s.reg x ||| s.reg y))

/-- `8xy2` AND (42 R124): no flag. -/
def execAnd (x y : Nibble) (s : State) : Result := fallThrough s (s.setReg x (s.reg x &&& s.reg y))

/-- `8xy3` XOR (42 R125): no flag. -/
def execXor (x y : Nibble) (s : State) : Result := fallThrough s (s.setReg x (s.reg x ^^^ s.reg y))

/-- `8xy4` ADD (42 R126). -/
def execAdd (x y : Nibble) (s : State) : Result :=
  fallThrough s (flagThenReg (carryAdd (s.reg x) (s.reg y)) x (fun t => t.reg x + t.reg y) s)

/-- `8xy5` SUB (42 R127). -/
def execSub (x y : Nibble) (s : State) : Result :=
  fallThrough s (flagThenReg (greater (s.reg x) (s.reg y)) x (fun t => t.reg x - t.reg y) s)

/-- `8xy6` SHR (42 R128): `y` is ignored. -/
def execShr (x _y : Nibble) (s : State) : Result :=
  fallThrough s (flagThenReg (lowBit (s.reg x)) x (fun t => t.reg x >>> 1) s)

/-- `8xy7` SUBN (42 R129). -/
def execSubn (x y : Nibble) (s : State) : Result :=
  fallThrough s (flagThenReg (greater (s.reg y) (s.reg x)) x (fun t => t.reg y - t.reg x) s)

/-- `8xyE` SHL (42 R130): `y` is ignored. -/
def execShl (x _y : Nibble) (s : State) : Result :=
  fallThrough s (flagThenReg (highBit (s.reg x)) x (fun t => t.reg x <<< 1) s)

end Sys2Proof.Machine
end

