-- ==== Sys2Proof/Machine/Control.lean ====
section
/-! DEFINITION. Control transfer, call stack and skips (spec file 41). -/

namespace Sys2Proof.Machine

/-- `00EE` RET (41 R100). -/
def execRet (s : State) : Result :=
  if s.sp.toNat = 0 then raise .stackUnderflow
  else goTo ((s.stackAt (s.sp.toNat - 1)).toNat + 2) s.pop

/-- `1nnn` JP (41 R101). -/
def execJp (nnn : Addr) (s : State) : Result := complete nnn.toNat s

/-- `2nnn` CALL (41 R102): pushes the address of the `2nnn` itself. `SP` never exceeds 16 (assumption 6). -/
def execCall (nnn : Addr) (s : State) : Result :=
  if s.sp.toNat ≥ 16 then raise .stackOverflow
  else complete nnn.toNat (s.push s.pc)

/-- `Bnnn` JPV0 (41 R104). -/
def execJpv0 (nnn : Addr) (s : State) : Result := goTo (nnn.toNat + s.offset) s

/-- `3xkk` SEI (41 R105). -/
def execSei (x : Nibble) (kk : Byte) (s : State) : Result := skipIf (s.reg x == kk) s

/-- `4xkk` SNEI (41 R106). -/
def execSnei (x : Nibble) (kk : Byte) (s : State) : Result := skipIf (s.reg x != kk) s

/-- `5xy0` SER (41 R107). -/
def execSer (x y : Nibble) (s : State) : Result := skipIf (s.reg x == s.reg y) s

/-- `9xy0` SNER (41 R108). -/
def execSner (x y : Nibble) (s : State) : Result := skipIf (s.reg x != s.reg y) s

end Sys2Proof.Machine
end

