-- ==== Sys2Proof/Machine/Devices.lean ====
section
/-! DEFINITION. Key and timer instructions (spec file 45). -/

namespace Sys2Proof.Machine

/-- The key skips: the value of `V[x]` must be a key index, and the skip is taken when that key's state is `want` (45 R160, R161). -/
def keySkip (want : Bool) (x : Nibble) (s : State) : Result :=
  if (s.reg x).toNat > 15 then raise (.keyIndexOutOfRange (s.reg x).toNat)
  else skipIf (s.key (s.reg x).toNat == want) s

/-- `Ex9E` SKP (45 R160). -/
def execSkp (x : Nibble) (s : State) : Result := keySkip true x s

/-- `ExA1` SKNP (45 R161). -/
def execSknp (x : Nibble) (s : State) : Result := keySkip false x s

/-- `Fx0A` WKEY (45 R162): waits by repeating itself while no key is down. -/
def execWkey (x : Nibble) (s : State) : Result :=
  match s.lowestKey with
  | none => hold s
  | some k => fallThrough s (s.setReg x (BitVec.ofNat 8 k))

/-- `Fx07` LDDT (45 R163). -/
def execLddt (x : Nibble) (s : State) : Result := fallThrough s (s.setReg x s.dt)

/-- `Fx15` STDT (45 R164). -/
def execStdt (x : Nibble) (s : State) : Result := fallThrough s (s.setDt (s.reg x))

/-- `Fx18` STST (45 R165). -/
def execStst (x : Nibble) (s : State) : Result := fallThrough s (s.setSt (s.reg x))

end Sys2Proof.Machine
end

