-- ==== Sys2Proof/Machine/Display.lean ====
section
/-! DEFINITION. Framebuffer clear and sprite drawing (spec file 44). -/

namespace Sys2Proof.Machine

/-- `00E0` CLS (44 R150). -/
def execCls (s : State) : Result := fallThrough s ((s.setFb 0#2048).setDirty true)

/-- The cells `Dxyn` XORs: the coordinates are sampled before VF is written (44 R151, D3). -/
def State.drawTargets (s : State) (x y n : Nibble) : List Nat :=
  spriteCells s.mem (s.effAddr 0) (s.reg x) (s.reg y) n.toNat

/-- The writes of `Dxyn`: the framebuffer, VF = collision, DIRTY = 1 (44 R151). -/
def State.drawSprite (s : State) (x y n : Nibble) : State :=
  let r := drawCells s.fb false (s.drawTargets x y n)
  ((s.setFb r.1).setFlag r.2).setDirty true

/-- The range check of `Dxyn`: no row, no address (44 R151, D4). -/
def checkRows (n : Nat) (s : State) (k : Result) : Result :=
  if n = 0 then k else checkMem (s.effAddr (n - 1)) k

/-- `Dxyn` DRW (44 R151). -/
def execDrw (x y n : Nibble) (s : State) : Result :=
  checkPc s.nextPc (checkRows n.toNat s (complete s.nextPc (s.drawSprite x y n)))

end Sys2Proof.Machine
end

