-- ==== Sys2Proof/Machine/Random.lean ====
section
/-! DEFINITION. The random byte (42 R131, R132). -/

namespace Sys2Proof.Machine

/-- `rand8()`: the free value of the next draw (assumption 2). -/
def State.rand8 (s : State) : Byte := Config.rand8 s.draws

/-- `Cxkk` RND (42 R131): one fresh draw an execution. -/
def execRnd (x : Nibble) (kk : Byte) (s : State) : Result := fallThrough s (s.drawn.setReg x (s.rand8 &&& kk))

end Sys2Proof.Machine
end

