-- ==== Sys2Proof/Machine/Step.lean ====
section
/-! DEFINITION. The `step` event (40 R90): fetch, decode, execute, status. -/

namespace Sys2Proof.Machine

/-- One step: fetch the word at `pc` (40 R91), decode it (R92), and execute it (R93, R95) or report it undecodable (60 R170). -/
def step (s : State) : Host.Outcome State Fault Refusal :=
  match fetch s with
  | .error f => raise f
  | .ok w =>
    match decodeWord w with
    | none => reject w s
    | some i => exec i s

/-- The state with the instruction word `w` (the low `nbits` bits) stored big-endian at `pc`, where the next step fetches it. -/
def State.withFetchWord (s : State) (nbits w : Nat) : State :=
  s.store s.pc.toNat [BitVec.ofNat 8 (w % 2 ^ nbits / 256), BitVec.ofNat 8 (w % 2 ^ nbits)]

end Sys2Proof.Machine
end

