-- ==== Sys2Proof/Machine/Events.lean ====
section
/-! DEFINITION. The host interface: the seven events of 60 R182 as one transition, runs of events, and the outputs of 60 R186 to
R189. The fixed `step` is the `step` event alone; `deliver` gives the state after every event, after a fault too. -/

namespace Sys2Proof.Machine

/-- What a step can report: exactly the seven names of 60 R191. -/
inductive Report where
  /-- The source's own report (60 R170). -/
  | undecodable (u : Undecodable)
  /-- One of the six faults (60 R172). -/
  | fault (f : Fault)
  deriving DecidableEq, Repr

/-- The state the `reset` event leaves (70 R200, R201). The draw counter goes on, so that nothing relates the random bytes after a
reset to those before it (91 N5; assumption 2). -/
def State.afterReset (s : State) : State := { State.reset with draws := s.draws }

/-- One timer counted down, clamped at 0 (60 R185). -/
def countDown (b : Byte) : Byte := if b.toNat > 0 then b - 1#8 else 0#8

/-- The `tick` event (60 R185). -/
def State.tick (s : State) : State := (s.setDt (countDown s.dt)).setSt (countDown s.st)

/-- The `load` event (60 R183): a plain copy to 0x200, nothing else changes. -/
def State.loadImage (s : State) (bytes : List Byte) : State := s.store 0x200 bytes

/-- The `step` event with what it leaves and what it reports: after a fault the state is the one before (60 R172). -/
def stepEvent (s : State) : Except Refusal (State × Option Report) :=
  match step s with
  | .next t => .ok (t, t.report.map .undecodable)
  | .fault f => .ok (s, some (.fault f))
  | .refused r => .error r

/-- One event of 60 R182: the state after it and the report it emits, or the refusal of an event the core does not admit. -/
def deliver (e : Event) (s : State) : Except Refusal (State × Option Report) :=
  match e with
  | .reset => .ok (s.afterReset, none)
  | .load bytes => if imageOk bytes then .ok (s.loadImage bytes, none) else .error (.imageTooLong bytes.length)
  | .step => stepEvent s
  | .tick => .ok (s.tick, none)
  | .keyPress k => if keyIndexOk k then .ok (s.setKey k true, none) else .error (.keyEventIndex k)
  | .keyRelease k => if keyIndexOk k then .ok (s.setKey k false, none) else .error (.keyEventIndex k)
  | .dirtyClear => .ok (s.setDirty false, none)

/-- The state after a sequence of events in the order the host gives (00 R8, 60 R190). -/
def runEvents : List Event → State → Except Refusal State
  | [], s => .ok s
  | e :: es, s =>
    match deliver e s with
    | .ok (t, _) => runEvents es t
    | .error r => .error r

/-- The output `pixel(p)` (60 R186). -/
def State.pixel (s : State) (p : Nat) : Except Refusal Bool :=
  if p < 2048 then .ok (s.cell p) else .error (.pixelIndex p)

/-- The output `dirty` (60 R187). -/
def State.dirtyOut (s : State) : Bool := s.dirty

/-- The output `sound`: the value of `ST` (60 R188). -/
def State.soundOut (s : State) : Byte := s.st

/-- The audio trigger: `ST ≠ 0` (60 R188). -/
def State.audioOn (s : State) : Bool := s.st != 0#8

/-- The output `blocked` (60 R189). -/
def State.blockedOut (s : State) : Bool := s.blocked

end Sys2Proof.Machine
end

