-- ==== Sys2Proof/Safety.lean ====
section
/-! DEFINITION. The terms claims are stated in: what it means for a step to answer a given state, the invariant, the spec's own
tables of the new `pc` (40 R93), of the faults and their order (60 R181) and of who writes what (10 R39), written here from those
tables and not from the meanings. -/

namespace Sys2Proof.Machine

/-- The outcome is a next state that agrees with `e` on every element of the spec's state, the status output `BLOCKED` and the
model's own `report` apart (those two have statements of their own). -/
def Completes (r : Result) (e : State) : Prop :=
  ∃ t, r = .next t ∧ t = { e with blocked := t.blocked, report := t.report }

/-- `CheckPc(t)`, the effect that makes the state `e`, `pc <- t` (40 R93): completes with `pc = t` when `t` fits 12 bits, and
otherwise raises `PcOutOfRange(t)` (the spec's decision D8). -/
def EndsAt (r : Result) (t : Nat) (e : State) : Prop :=
  (t ≤ 0xFFF → Completes r { e with pc := BitVec.ofNat 12 t }) ∧ (0xFFF < t → r = .fault (.pcOutOfRange t))

/-- The invariant: memory in canonical form, and `SP` in its range 0 to 16 (10 R27). -/
abbrev State.Inv (s : State) : Prop := s.mem.wf ∧ s.sp.toNat ≤ 16

/-- A step that completes with nothing reported. -/
def State.StepsCleanly (s : State) : Prop := ∃ t, step s = .next t ∧ t.report = none

/-- The end of a program, by convention: a jump at `pc` to its own address (40 R96). -/
def State.Ended (s : State) : Prop := fetch s = .ok (formatA 0x1#4 s.pc)

/-- Every element at the value 10 R38 gives it after reset; `RNG` is not carried (10 R36) and the font bytes are `FONT[a]`. -/
def State.IsReset (s : State) : Prop :=
  (∀ r, s.reg r = 0#8) ∧ s.pc = 0x200#12 ∧ s.ireg = 0#12 ∧ (∀ k < 16, s.stackAt k = 0#12) ∧ s.sp = 0#5 ∧
    s.dt = 0#8 ∧ s.st = 0#8 ∧ (∀ k < 16, s.key k = false) ∧ (∀ p < 2048, s.cell p = false) ∧
    s.dirty = false ∧ s.blocked = false ∧ (∀ a < 0x50, s.mem.read a = fontByte a) ∧
    (∀ a, 0x50 ≤ a → a ≤ 0xFFF → s.mem.read a = 0#8)

/-- No key is pressed. -/
def State.NoKey (s : State) : Prop := ∀ k < 16, s.key k = false

/-- `k` is the least pressed key (45 R162). -/
def State.LowestPressed (s : State) (k : Nat) : Prop := k < 16 ∧ s.key k = true ∧ ∀ j < k, s.key j = false

/-- The new `pc` of an instruction that completes, as an unbounded number: the table of 40 R93. -/
def targetOf (i : Instr) (s : State) : Nat :=
  match i with
  | .jp nnn | .call nnn => nnn.toNat
  | .jpv0 nnn => nnn.toNat + (s.reg 0#4).toNat
  | .ret => (s.stackAt (s.sp.toNat - 1)).toNat + 2
  | .sei x kk => if s.reg x = kk then s.pc.toNat + 4 else s.pc.toNat + 2
  | .snei x kk => if s.reg x = kk then s.pc.toNat + 2 else s.pc.toNat + 4
  | .ser x y => if s.reg x = s.reg y then s.pc.toNat + 4 else s.pc.toNat + 2
  | .sner x y => if s.reg x = s.reg y then s.pc.toNat + 2 else s.pc.toNat + 4
  | .skp x => if s.key (s.reg x).toNat then s.pc.toNat + 4 else s.pc.toNat + 2
  | .sknp x => if s.key (s.reg x).toNat then s.pc.toNat + 2 else s.pc.toNat + 4
  | .wkey _ => if s.lowestKey = none then s.pc.toNat else s.pc.toNat + 2
  | .cls | .ldi .. | .addi .. | .mov .. | .or .. | .and .. | .xor .. | .add .. | .sub .. | .shr .. | .subn .. | .shl ..
  | .lda .. | .rnd .. | .drw .. | .lddt .. | .stdt .. | .stst .. | .adda .. | .font .. | .bcd .. | .stm .. | .ldm .. =>
    s.pc.toNat + 2

/-- The operand faults, third in the order of 60 R181: R173, R174, R179. -/
def operandFaultOf (i : Instr) (s : State) : Option Fault :=
  match i with
  | .ret => if s.sp.toNat = 0 then some .stackUnderflow else none
  | .call _ => if s.sp.toNat = 16 then some .stackOverflow else none
  | .skp x | .sknp x => if 15 < (s.reg x).toNat then some (.keyIndexOutOfRange (s.reg x).toNat) else none
  | .cls | .jp .. | .sei .. | .snei .. | .ser .. | .sner .. | .ldi .. | .addi .. | .mov .. | .or .. | .and .. | .xor ..
  | .add .. | .sub .. | .shr .. | .subn .. | .shl .. | .lda .. | .jpv0 .. | .rnd .. | .drw .. | .lddt .. | .wkey ..
  | .stdt .. | .stst .. | .adda .. | .font .. | .bcd .. | .stm .. | .ldm .. => none

/-- The highest address a block instruction touches, none when it touches no memory (20 R56, 60 R177). -/
def highestOf (i : Instr) (s : State) : Option Nat :=
  match i with
  | .bcd _ => some (s.ireg.toNat + 2)
  | .stm x | .ldm x => some (s.ireg.toNat + x.toNat)
  | .drw _ _ n => if n = 0#4 then none else some (s.ireg.toNat + n.toNat - 1)
  | .cls | .ret | .jp .. | .call .. | .sei .. | .snei .. | .ser .. | .sner .. | .ldi .. | .addi .. | .mov .. | .or ..
  | .and .. | .xor .. | .add .. | .sub .. | .shr .. | .subn .. | .shl .. | .lda .. | .jpv0 .. | .rnd .. | .skp ..
  | .sknp .. | .lddt .. | .wkey .. | .stdt .. | .stst .. | .adda .. | .font .. => none

/-- The fault an instruction raises in its execute phase, if any, in the order of 60 R181: operand fault, `PcOutOfRange`,
`MemoryOutOfRange`. -/
def faultOf (i : Instr) (s : State) : Option Fault :=
  match operandFaultOf i s with
  | some f => some f
  | none =>
    if 0xFFF < targetOf i s then some (.pcOutOfRange (targetOf i s))
    else match highestOf i s with
      | some a => if 0xFFF < a then some (.memoryOutOfRange a) else none
      | none => none

/-- The elements of the state whose change 10 R39 governs, and the model's draw counter. `pc`, `BLOCKED` and `report` are written by
every step. -/
inductive Element where
  /-- `V[r]`. -/
  | v (r : Nibble)
  /-- `I`. -/
  | ireg
  /-- `STACK[k]`. -/
  | stack (k : Nat)
  /-- `SP`. -/
  | sp
  /-- `DT`. -/
  | dt
  /-- `ST`. -/
  | st
  /-- `KEY`. -/
  | keys
  /-- `FB[p]`. -/
  | fb (p : Nat)
  /-- `DIRTY`. -/
  | dirty
  /-- `MEM[a]`. -/
  | mem (a : Nat)
  /-- The model's draw counter. -/
  | draws
  deriving DecidableEq, Repr

/-- The element holds in `t` what it held in `s`. -/
def Element.Same (e : Element) (s t : State) : Prop :=
  match e with
  | .v r => t.reg r = s.reg r
  | .ireg => t.ireg = s.ireg
  | .stack k => t.stackAt k = s.stackAt k
  | .sp => t.sp = s.sp
  | .dt => t.dt = s.dt
  | .st => t.st = s.st
  | .keys => t.keys = s.keys
  | .fb p => t.cell p = s.cell p
  | .dirty => t.dirty = s.dirty
  | .mem a => t.mem.read a = s.mem.read a
  | .draws => t.draws = s.draws

/-- The register and flag writes of 10 R39 and R22: `V[x]`, `V[0..x]` for `Fx65`, VF for the seven flag instructions. -/
def writesReg (i : Instr) (r : Nibble) : Bool :=
  match i with
  | .ldi x _ | .addi x _ | .mov x _ | .or x _ | .and x _ | .xor x _ | .rnd x _ | .lddt x | .wkey x => r == x
  | .add x _ | .sub x _ | .shr x _ | .subn x _ | .shl x _ => r == x || r == 0xF#4
  | .adda _ | .drw .. => r == 0xF#4
  | .ldm x => decide (r.toNat ≤ x.toNat)
  | .cls | .ret | .jp .. | .call .. | .sei .. | .snei .. | .ser .. | .sner .. | .lda .. | .jpv0 .. | .skp .. | .sknp ..
  | .stdt .. | .stst .. | .font .. | .bcd .. | .stm .. => false

/-- The bytes an instruction stores to: `I` to `I + 2` for `Fx33`, `I` to `I + x` for `Fx55` (43 R143, R144, R146). -/
def storesTo (i : Instr) (s : State) (a : Nat) : Bool :=
  match i with
  | .bcd _ => decide (s.effAddr 0 ≤ a ∧ a ≤ s.effAddr 2)
  | .stm x => decide (s.effAddr 0 ≤ a ∧ a ≤ s.effAddr x.toNat)
  | .cls | .ret | .jp .. | .call .. | .sei .. | .snei .. | .ser .. | .sner .. | .ldi .. | .addi .. | .mov .. | .or ..
  | .and .. | .xor .. | .add .. | .sub .. | .shr .. | .subn .. | .shl .. | .lda .. | .jpv0 .. | .rnd .. | .drw ..
  | .skp .. | .sknp .. | .lddt .. | .wkey .. | .stdt .. | .stst .. | .adda .. | .font .. | .ldm .. => false

/-- The access matrix of 10 R39, its "written by" column: whether the instruction may write the element. -/
def mayWrite (i : Instr) (s : State) (e : Element) : Bool :=
  match e with
  | .v r => writesReg i r
  | .ireg => match i with | .lda _ | .adda _ | .font _ => true | _ => false
  | .stack k => match i with | .call _ => k == s.sp.toNat | _ => false
  | .sp => match i with | .call _ | .ret => true | _ => false
  | .dt => match i with | .stdt _ => true | _ => false
  | .st => match i with | .stst _ => true | _ => false
  | .keys => false
  | .fb _ => match i with | .cls | .drw .. => true | _ => false
  | .dirty => match i with | .cls | .drw .. => true | _ => false
  | .mem a => storesTo i s a
  | .draws => match i with | .rnd .. => true | _ => false

/-- Sprite bit (`row`, `col`) of the sprite at `I` is set (44 R151, R152). -/
def State.spriteSet (s : State) (row col : Nat) : Bool :=
  (s.mem.read (s.ireg.toNat + row)).getLsbD (7 - col)

/-- A set bit of the `n`-row sprite at `I`, drawn at (`vx`, `vy`), targets cell `p` (44 R151, R153). -/
def State.SpriteTargets (s : State) (vx vy : Byte) (n p : Nat) : Prop :=
  ∃ row < n, ∃ col < 8, s.spriteSet row col = true ∧ p = ((vx.toNat + col) + (vy.toNat + row) * 64) % 2048

end Sys2Proof.Machine
end

