-- ==== Sys2Proof/Certificates/Slice0/Obligations.lean ====
section
/-! DEFINITION. The statements for the provers. Each docstring names what of spec/ it formalises. `Completes`, `EndsAt` and the
tables `targetOf`, `faultOf`, `mayWrite` are defined in Sys2Proof/Safety.lean; they leave `BLOCKED` and the model's `report` to
`BlockedIsSetExactlyByTheKeyWait`. Wherever `EndsAt` stands, its clause for a target above 0xFFF is the check `CheckPc` of 40 R93,
the spec's decision D8. A clause marked "spec's decision D<n>" rests on a choice the spec marks as its own. -/

open Sys2Proof Sys2Proof.Machine

/-! ### Encoding (spec file 30) -/

/-- Every instruction, with every value of every operand, is what its word decodes to (formats of R72, map of R76). -/
def Obligations.DecodeInvertsEncode : Prop := ∀ i : Instr, decodeWord (encode i) = some i

/-- A word that decodes is the word of the instruction it decodes to: no two words share an instruction, no bit is dropped. -/
def Obligations.EncodeInvertsDecode : Prop := ∀ (w : Word) (i : Instr), decodeWord w = some i → encode i = w

/-- The two bytes of an instruction, high byte first, decode to it, and the bytes after them are left over (20 R51, 30 R70). -/
def Obligations.BytesOfAnInstructionDecodeToIt : Prop :=
  ∀ (i : Instr) (rest : List Byte), decode (encodeBytes i ++ rest) = .ok (i, rest)

/-- The two-level decode agrees with the table of masks: a row of R76 covers a word exactly when the word decodes to an instruction
with that row's mnemonic (30 R75; exact matching is the spec's decision D10). -/
def Obligations.DecodingFollowsTheOpcodeMap : Prop :=
  ∀ (w : Word), ∀ r ∈ opcodeRows, r.covers w = true ↔ ∃ i, decodeWord w = some i ∧ i.mnemonic = r.mnemonic

/-- The 34 mask and match pairs are mutually exclusive (30 R75). -/
def Obligations.OpcodeRowsAreMutuallyExclusive : Prop :=
  ∀ (w : Word), ∀ r ∈ opcodeRows, ∀ q ∈ opcodeRows, r.covers w = true → q.covers w = true → r = q

/-- The undecodable words, exhaustively (30 R80, which the spec marks as derived). -/
def Obligations.UndecodableWordsExactly : Prop :=
  ∀ w : Word, decodeWord w = none ↔
    (opOf w = 0x0#4 ∧ w ≠ 0x00E0#16 ∧ w ≠ 0x00EE#16) ∨
    ((opOf w = 0x5#4 ∨ opOf w = 0x9#4) ∧ nOf w ≠ 0x0#4) ∨
    (opOf w = 0x8#4 ∧ nOf w ∈ [0x8#4, 0x9#4, 0xA#4, 0xB#4, 0xC#4, 0xD#4, 0xF#4]) ∨
    (opOf w = 0xE#4 ∧ kkOf w ∉ [0x9E#8, 0xA1#8]) ∨
    (opOf w = 0xF#4 ∧ kkOf w ∉ [0x07#8, 0x0A#8, 0x15#8, 0x18#8, 0x1E#8, 0x29#8, 0x33#8, 0x55#8, 0x65#8])

/-- The words of the rules' own examples, one or more of every format, decode to the instructions they stand for. -/
def Obligations.WrittenOutWordsDecode : Prop :=
  decodeWord 0x00E0#16 = some .cls ∧ decodeWord 0x00EE#16 = some .ret ∧ decodeWord 0x1204#16 = some (.jp 0x204#12) ∧
    decodeWord 0x4A7F#16 = some (.snei 0xA#4 0x7F#8) ∧ decodeWord 0x8015#16 = some (.sub 0x0#4 0x1#4) ∧
    decodeWord 0xD012#16 = some (.drw 0x0#4 0x1#4 0x2#4) ∧ decodeWord 0xE5A1#16 = some (.sknp 0x5#4) ∧
    decodeWord 0xF329#16 = some (.font 0x3#4) ∧ decodeWord 0x5121#16 = none

/-! ### The step (spec files 40, 60) -/

/-- Fetch: the byte at the lower address holds the high half of the word (20 R51). -/
def Obligations.FetchIsBigEndian : Prop :=
  ∀ s : State, s.pc.toNat ≤ 0xFFE → ∃ w, fetch s = .ok w ∧
    w.toNat = (s.mem.read s.pc.toNat).toNat * 256 + (s.mem.read (s.pc.toNat + 1)).toNat ∧
    w.extractLsb' 8 8 = s.mem.read s.pc.toNat ∧ w.extractLsb' 0 8 = s.mem.read (s.pc.toNat + 1)

/-- A step is fetch, decode, execute (phases 1 to 3 of 40 R90): at 0xFFF it faults (spec's decision D8); elsewhere the two bytes at
`pc` are decoded, an undecodable word gives the report with `stage = w[15:12]` (spec's decision D11; the next state records it,
assumption 3), and a decoded instruction is executed with nothing around it. -/
def Obligations.StepRunsTheDecodedInstruction : Prop :=
  ∀ s : State, (s.pc = 0xFFF#12 → step s = .fault (.fetchOutOfRange 0xFFF)) ∧
    (s.pc ≠ 0xFFF#12 → ∀ w, w = wordOf (s.mem.read s.pc.toNat) (s.mem.read (s.pc.toNat + 1)) →
      (decodeWord w = none →
        step s = .next { s with blocked := false, report := some { word := w, stage := w.extractLsb' 12 4 } }) ∧
      (∀ i, decodeWord w = some i → i.wf = true ∧ step s = exec i s))

/-- The status phase (40 R95, spec's decision D15): an instruction that completes reports nothing, and leaves `BLOCKED` 1 exactly
when it is `Fx0A` and no key is pressed. -/
def Obligations.BlockedIsSetExactlyByTheKeyWait : Prop :=
  ∀ (i : Instr) (s t : State), exec i s = .next t →
    t.report = none ∧ (t.blocked = true ↔ (∃ x, i = .wkey x) ∧ s.NoKey)

/-- An undecodable word stalls the core: however many steps the host issues, the state is the one before but for `BLOCKED`, and the
report stands (40 R92, 60 R170; the stage is the spec's decision D11, the record assumption 3). -/
def Obligations.UndecodableWordStalls : Prop :=
  ∀ (s : State) (w : Word) (n : Nat), fetch s = .ok w → decodeWord w = none →
    runEvents (List.replicate (n + 1) .step) s =
      .ok { s with blocked := false, report := some { word := w, stage := opOf w } }

/-- An instruction faults exactly with the first condition in the order of 60 R181 (spec's decisions D6 to D9 and D14). -/
def Obligations.FaultsExactlyWhenTheSpecSays : Prop :=
  ∀ (i : Instr) (s : State) (f : Fault), s.sp.toNat ≤ 16 → (exec i s = .fault f ↔ faultOf i s = some f)

/-- Every instruction for which no fault condition holds completes, with the new `pc` of the table of 40 R93; and no step is ever
refused, so every instruction has a meaning (the fault conditions are the spec's decisions D6 to D9). -/
def Obligations.EveryInstructionCompletes : Prop :=
  (∀ (i : Instr) (s : State), s.sp.toNat ≤ 16 → faultOf i s = none →
    ∃ t, exec i s = .next t ∧ t.pc.toNat = targetOf i s) ∧
  ∀ (s : State) (r : Refusal), step s ≠ .refused r

/-- A fault leaves every state element as it was, so every later step faults the same way (60 R172, spec's decision D13). -/
def Obligations.FaultLeavesTheStateAndRepeats : Prop :=
  ∀ (s : State) (f : Fault), step s = .fault f →
    deliver .step s = .ok (s, some (.fault f)) ∧ ∀ n, runEvents (List.replicate n .step) s = .ok s

/-! ### Reset, boot, invariants (spec files 10, 70) -/

/-- The state after reset (10 R38). The font bytes are the parameter `FONT[a]`, whatever it is (assumption 1). -/
def Obligations.ResetLeavesTheStatedValues : Prop := State.reset.IsReset

/-- The `reset` event, issued at any time, has the effect of construction in full (70 R200, R201; spec's decision D1). -/
def Obligations.ResetEventRestoresEverything : Prop :=
  ∀ s : State, ∃ t, deliver .reset s = .ok (t, none) ∧ t.IsReset

/-- The invariant holds after reset. -/
def Obligations.ResetMeetsTheInvariant : Prop := State.reset.Inv

/-- Every step keeps the invariant: memory stays in canonical form inside the address space, `SP` stays 0 to 16 (10 R27). -/
def Obligations.StepKeepsTheInvariant : Prop := ∀ s t : State, s.Inv → step s = .next t → t.Inv

/-- Every run of events, in whatever order and of whatever length the host chooses, keeps the invariant (00 R8, 60 R182). -/
def Obligations.EveryRunOfEventsKeepsTheInvariant : Prop :=
  ∀ (es : List Event) (s t : State), s.Inv → runEvents es s = .ok t → t.Inv

/-- After `reset` and `load`, the first step executes the image's first word (70 R202, 60 R183). -/
def Obligations.LoadedImageRunsFromItsFirstWord : Prop :=
  ∀ (hi lo : Byte) (rest : List Byte) (i : Instr), rest.length ≤ 3582 → decodeWord (wordOf hi lo) = some i →
    ∃ t, deliver (.load (hi :: lo :: rest)) State.reset = .ok (t, none) ∧ step t = exec i t

/-! ### Control transfer and skips (spec file 41) -/

/-- `1nnn` (41 R101): every word of family 1 is a jump to its low 12 bits, whatever they are; `pc` becomes them and nothing else
changes. -/
def Obligations.JumpSetsPc : Prop :=
  (∀ w : Word, opOf w = 0x1#4 → decodeWord w = some (.jp (w.extractLsb' 0 12))) ∧
  ∀ (s : State) (nnn : Addr), Completes (exec (.jp nnn) s) { s with pc := nnn }

/-- `2nnn` (41 R102; stack convention and guard are the spec's decisions D5 and D6). -/
def Obligations.CallPushesItsOwnAddress : Prop :=
  ∀ (s : State) (nnn : Addr),
    (s.sp.toNat < 16 → Completes (exec (.call nnn) s)
      { s with stack := s.stack.setIfInBounds s.sp.toNat s.pc, sp := BitVec.ofNat 5 (s.sp.toNat + 1), pc := nnn }) ∧
    (s.sp.toNat = 16 → exec (.call nnn) s = .fault .stackOverflow)

/-- `00EE` (41 R100; stack convention and guard are the spec's decisions D5 and D6). The popped entry keeps its value. -/
def Obligations.ReturnPopsAndAddsTwo : Prop :=
  ∀ s : State,
    (0 < s.sp.toNat → s.sp.toNat ≤ 16 → ∀ a, s.stack[s.sp.toNat - 1]? = some a →
      EndsAt (exec .ret s) (a.toNat + 2) { s with sp := BitVec.ofNat 5 (s.sp.toNat - 1) }) ∧
    (s.sp.toNat = 0 → exec .ret s = .fault .stackUnderflow)

/-- Call and return pair up: a later return at the same depth, its entry not overwritten, continues after the call (41 R103, which
the spec marks as derived; convention and range are its decisions D5 and D8). -/
def Obligations.ReturnContinuesAfterTheCall : Prop :=
  ∀ (s t u : State) (nnn : Addr), exec (.call nnn) s = .next t → s.pc.toNat + 2 ≤ 0xFFF →
    u.sp = t.sp → u.stackAt s.sp.toNat = t.stackAt s.sp.toNat →
    Completes (exec .ret u) { u with sp := s.sp, pc := BitVec.ofNat 12 (s.pc.toNat + 2) }

/-- `Bnnn` (41 R104; no wrap is the spec's decision D8). -/
def Obligations.JumpWithOffsetUsesV0 : Prop :=
  ∀ (s : State) (nnn : Addr), EndsAt (exec (.jpv0 nnn) s) (nnn.toNat + (s.reg 0x0#4).toNat) s

/-- `3xkk` and `4xkk` (41 R105, R106). -/
def Obligations.ImmediateSkips : Prop :=
  ∀ (s : State) (x : Nibble) (kk : Byte),
    EndsAt (exec (.sei x kk) s) (if s.reg x = kk then s.pc.toNat + 4 else s.pc.toNat + 2) s ∧
    EndsAt (exec (.snei x kk) s) (if s.reg x ≠ kk then s.pc.toNat + 4 else s.pc.toNat + 2) s

/-- `5xy0` and `9xy0` (41 R107, R108). -/
def Obligations.RegisterSkips : Prop :=
  ∀ (s : State) (x y : Nibble),
    EndsAt (exec (.ser x y) s) (if s.reg x = s.reg y then s.pc.toNat + 4 else s.pc.toNat + 2) s ∧
    EndsAt (exec (.sner x y) s) (if s.reg x ≠ s.reg y then s.pc.toNat + 4 else s.pc.toNat + 2) s

/-- A self-jump repeats with the state unchanged: the end of a program (40 R96, spec's decision D13). -/
def Obligations.SelfJumpChangesNothing : Prop :=
  ∀ s : State, s.Ended → Completes (step s) s ∧ s.StepsCleanly

/-! ### Loads, ALU, random (spec file 42) -/

/-- `6xkk` and `8xy0` (42 R120, R122). -/
def Obligations.LoadImmediateAndMove : Prop :=
  ∀ (s : State) (x y : Nibble) (kk : Byte),
    EndsAt (exec (.ldi x kk) s) (s.pc.toNat + 2) { s with v := s.v.set x.toNat kk x.isLt } ∧
    EndsAt (exec (.mov x y) s) (s.pc.toNat + 2) { s with v := s.v.set x.toNat (s.reg y) x.isLt }

/-- `7xkk` (42 R121): modulo 256, and VF is not written unless it is the destination. -/
def Obligations.AddImmediateWritesNoFlag : Prop :=
  ∀ (s : State) (x : Nibble) (kk : Byte),
    EndsAt (exec (.addi x kk) s) (s.pc.toNat + 2)
      { s with v := s.v.set x.toNat (BitVec.ofNat 8 (((s.reg x).toNat + kk.toNat) % 256)) x.isLt }

/-- `8xy1`, `8xy2`, `8xy3` (42 R123, R124, R125): VF is not written unless it is the destination. -/
def Obligations.LogicWritesNoFlag : Prop :=
  ∀ (s : State) (x y : Nibble),
    EndsAt (exec (.or x y) s) (s.pc.toNat + 2) { s with v := s.v.set x.toNat (s.reg x ||| s.reg y) x.isLt } ∧
    EndsAt (exec (.and x y) s) (s.pc.toNat + 2) { s with v := s.v.set x.toNat (s.reg x &&& s.reg y) x.isLt } ∧
    EndsAt (exec (.xor x y) s) (s.pc.toNat + 2) { s with v := s.v.set x.toNat (s.reg x ^^^ s.reg y) x.isLt }

/-- `8xy4`, `8xy5`, `8xy7` with neither operand VF: results and flags of the table of 42 R133, free of the write order. -/
def Obligations.AddAndSubtractWithFlag : Prop :=
  ∀ (s : State) (x y : Nibble) (a b : Nat), x ≠ 0xF#4 → y ≠ 0xF#4 → a = (s.reg x).toNat → b = (s.reg y).toNat →
    EndsAt (exec (.add x y) s) (s.pc.toNat + 2)
      { s with v := (s.v.set x.toNat (BitVec.ofNat 8 ((a + b) % 256)) x.isLt).set 15 (if a + b > 255 then 1#8 else 0#8) } ∧
    EndsAt (exec (.sub x y) s) (s.pc.toNat + 2)
      { s with v := (s.v.set x.toNat (BitVec.ofNat 8 ((a + 256 - b) % 256)) x.isLt).set 15 (if a > b then 1#8 else 0#8) } ∧
    EndsAt (exec (.subn x y) s) (s.pc.toNat + 2)
      { s with v := (s.v.set x.toNat (BitVec.ofNat 8 ((b + 256 - a) % 256)) x.isLt).set 15 (if b > a then 1#8 else 0#8) }

/-- `8xy6`, `8xyE` with a destination other than VF: the bit shifted out goes to VF, and `y` never matters (42 R133, 70 R206). -/
def Obligations.ShiftsIgnoreTheSecondRegister : Prop :=
  ∀ (s : State) (x y : Nibble) (a : Nat), x ≠ 0xF#4 → a = (s.reg x).toNat →
    EndsAt (exec (.shr x y) s) (s.pc.toNat + 2)
      { s with v := (s.v.set x.toNat (BitVec.ofNat 8 (a / 2)) x.isLt).set 15 (BitVec.ofNat 8 (a % 2)) } ∧
    EndsAt (exec (.shl x y) s) (s.pc.toNat + 2)
      { s with v := (s.v.set x.toNat (BitVec.ofNat 8 (2 * a % 256)) x.isLt).set 15 (BitVec.ofNat 8 (a / 128)) }

/-- VF as the second operand, `x ≠ 15`: the first column of 42 R134 (spec's decision D2: VF is written first). -/
def Obligations.FlagRegisterAsSource : Prop :=
  ∀ (s : State) (x : Nibble) (a o : Nat), x ≠ 0xF#4 → a = (s.reg x).toNat → o = (s.reg 0xF#4).toNat →
    (∀ c, c = (if a + o > 255 then 1 else 0) → EndsAt (exec (.add x 0xF#4) s) (s.pc.toNat + 2)
      { s with v := (s.v.set x.toNat (BitVec.ofNat 8 ((a + c) % 256)) x.isLt).set 15 (BitVec.ofNat 8 c) }) ∧
    (∀ g, g = (if a > o then 1 else 0) → EndsAt (exec (.sub x 0xF#4) s) (s.pc.toNat + 2)
      { s with v := (s.v.set x.toNat (BitVec.ofNat 8 ((a + 256 - g) % 256)) x.isLt).set 15 (BitVec.ofNat 8 g) }) ∧
    (∀ g, g = (if o > a then 1 else 0) → EndsAt (exec (.subn x 0xF#4) s) (s.pc.toNat + 2)
      { s with v := (s.v.set x.toNat (BitVec.ofNat 8 ((g + 256 - a) % 256)) x.isLt).set 15 (BitVec.ofNat 8 g) })

/-- VF as the destination: the second and third columns of 42 R134 (spec's decision D2). -/
def Obligations.FlagRegisterAsDestination : Prop :=
  ∀ (s : State) (y : Nibble) (o b : Nat), o = (s.reg 0xF#4).toNat → b = (s.reg y).toNat →
    (y ≠ 0xF#4 →
      (∀ c, c = (if o + b > 255 then 1 else 0) → EndsAt (exec (.add 0xF#4 y) s) (s.pc.toNat + 2)
        { s with v := s.v.set 15 (BitVec.ofNat 8 ((c + b) % 256)) }) ∧
      (∀ g, g = (if o > b then 1 else 0) → EndsAt (exec (.sub 0xF#4 y) s) (s.pc.toNat + 2)
        { s with v := s.v.set 15 (BitVec.ofNat 8 ((g + 256 - b) % 256)) }) ∧
      (∀ g, g = (if b > o then 1 else 0) → EndsAt (exec (.subn 0xF#4 y) s) (s.pc.toNat + 2)
        { s with v := s.v.set 15 (BitVec.ofNat 8 ((b + 256 - g) % 256)) })) ∧
    EndsAt (exec (.add 0xF#4 0xF#4) s) (s.pc.toNat + 2) { s with v := s.v.set 15 (if 2 * o > 255 then 2#8 else 0#8) } ∧
    EndsAt (exec (.sub 0xF#4 0xF#4) s) (s.pc.toNat + 2) { s with v := s.v.set 15 0#8 } ∧
    EndsAt (exec (.subn 0xF#4 0xF#4) s) (s.pc.toNat + 2) { s with v := s.v.set 15 0#8 } ∧
    EndsAt (exec (.shr 0xF#4 y) s) (s.pc.toNat + 2) { s with v := s.v.set 15 0#8 } ∧
    EndsAt (exec (.shl 0xF#4 y) s) (s.pc.toNat + 2) { s with v := s.v.set 15 (BitVec.ofNat 8 (2 * (o / 128))) }

/-- `Cxkk` (42 R131): the free value of the next draw, masked, and one draw taken (assumption 2). It holds for every sequence of
draws, since `Config.rand8` is opaque, and for every value of the counter. -/
def Obligations.RandomByteIsMasked : Prop :=
  ∀ (s : State) (x : Nibble) (kk : Byte),
    EndsAt (exec (.rnd x kk) s) (s.pc.toNat + 2)
      { s with v := s.v.set x.toNat (Config.rand8 s.draws &&& kk) x.isLt, draws := s.draws + 1 }

/-! ### Address register and memory (spec file 43) -/

/-- `Annn` and `Fx29` (43 R140, R142): all 8 bits of `V[x]`, times 5, with no reduction. -/
def Obligations.LoadAddressAndFontAddress : Prop :=
  ∀ (s : State) (nnn : Addr) (x : Nibble),
    EndsAt (exec (.lda nnn) s) (s.pc.toNat + 2) { s with ireg := nnn } ∧
    (∀ a : Addr, a.toNat = (s.reg x).toNat * 5 → EndsAt (exec (.font x) s) (s.pc.toNat + 2) { s with ireg := a }) ∧
    ∃ a : Addr, a.toNat = (s.reg x).toNat * 5

/-- `Fx1E` (43 R141): the 12-bit sum and its carry; with `x = 15` the new VF is what is added (spec's decision D2). -/
def Obligations.AddToAddressRegister : Prop :=
  ∀ (s : State) (x : Nibble) (c : Nat), c = (if s.ireg.toNat + (s.reg x).toNat > 0xFFF then 1 else 0) →
    (x ≠ 0xF#4 → EndsAt (exec (.adda x) s) (s.pc.toNat + 2)
      { s with v := s.v.set 15 (BitVec.ofNat 8 c),
               ireg := BitVec.ofNat 12 ((s.ireg.toNat + (s.reg x).toNat) % 4096) }) ∧
    (x = 0xF#4 → EndsAt (exec (.adda x) s) (s.pc.toNat + 2)
      { s with v := s.v.set 15 (BitVec.ofNat 8 c), ireg := BitVec.ofNat 12 ((s.ireg.toNat + c) % 4096) })

/-- `Fx33` (43 R143): three decimal digits at `I`, `I + 1`, `I + 2`; every other byte and every other element as before
(range checks: spec's decisions D7, D8). -/
def Obligations.BcdStoresThreeDigits : Prop :=
  ∀ (s : State) (x : Nibble), s.mem.wf → s.pc.toNat + 2 ≤ 0xFFF → s.effAddr 2 ≤ 0xFFF →
    ∃ t, exec (.bcd x) s = .next t ∧
      t.mem.read (s.effAddr 0) = BitVec.ofNat 8 ((s.reg x).toNat / 100) ∧
      t.mem.read (s.effAddr 1) = BitVec.ofNat 8 ((s.reg x).toNat / 10 % 10) ∧
      t.mem.read (s.effAddr 2) = BitVec.ofNat 8 ((s.reg x).toNat % 10) ∧
      (∀ a, a < s.effAddr 0 ∨ s.effAddr 2 < a → t.mem.read a = s.mem.read a) ∧
      t = { s with mem := t.mem, pc := BitVec.ofNat 12 (s.pc.toNat + 2), blocked := t.blocked, report := t.report }

/-- `Fx55` (43 R144): `V[0]` to `V[x]` at `I` upwards, `I` and every register unchanged, every other byte as before
(range checks: spec's decisions D7, D8). -/
def Obligations.StoreRegisters : Prop :=
  ∀ (s : State) (x : Nibble), s.mem.wf → s.pc.toNat + 2 ≤ 0xFFF → s.effAddr x.toNat ≤ 0xFFF →
    ∃ t, exec (.stm x) s = .next t ∧
      (∀ r : Nibble, r.toNat ≤ x.toNat → t.mem.read (s.effAddr r.toNat) = s.reg r) ∧
      (∀ a, a < s.effAddr 0 ∨ s.effAddr x.toNat < a → t.mem.read a = s.mem.read a) ∧
      t = { s with mem := t.mem, pc := BitVec.ofNat 12 (s.pc.toNat + 2), blocked := t.blocked, report := t.report }

/-- `Fx65` (43 R145): `V[0]` to `V[x]` from `I` upwards, the registers above `x`, `I` and memory unchanged (range
checks: spec's decisions D7, D8). -/
def Obligations.LoadRegisters : Prop :=
  ∀ (s : State) (x : Nibble), s.pc.toNat + 2 ≤ 0xFFF → s.effAddr x.toNat ≤ 0xFFF →
    ∃ t, exec (.ldm x) s = .next t ∧
      (∀ r : Nibble, t.reg r = if r.toNat ≤ x.toNat then s.mem.read (s.effAddr r.toNat) else s.reg r) ∧
      t = { s with v := t.v, pc := BitVec.ofNat 12 (s.pc.toNat + 2), blocked := t.blocked, report := t.report }

/-- Registers stored by `Fx55` come back by `Fx65` through the same `I` and memory, whatever happened to them in between
(range checks: spec's decisions D7, D8). -/
def Obligations.StoreThenLoadRestoresRegisters : Prop :=
  ∀ (s t u : State) (x : Nibble), s.mem.wf → exec (.stm x) s = .next t → u.mem = t.mem → u.ireg = t.ireg →
    u.pc.toNat + 2 ≤ 0xFFF → ∃ w, exec (.ldm x) u = .next w ∧ ∀ r : Nibble, r.toNat ≤ x.toNat → w.reg r = s.reg r

/-- A store is seen by the very next fetch (20 R63): `Fx55` onto the following word makes `V[0] ++ V[1]` the next
instruction (R63 is marked as derived; range checks: spec's decisions D7, D8). -/
def Obligations.StoreIsSeenByTheNextFetch : Prop :=
  ∀ (s : State) (x : Nibble), s.mem.wf → 1 ≤ x.toNat → s.ireg.toNat = s.pc.toNat + 2 → s.effAddr x.toNat ≤ 0xFFF →
    ∃ t, exec (.stm x) s = .next t ∧ fetch t = .ok (wordOf (s.reg 0x0#4) (s.reg 0x1#4))

/-! ### Display (spec file 44) -/

/-- `00E0` (44 R150). -/
def Obligations.ClearScreenSetsDirty : Prop :=
  ∀ s : State, EndsAt (exec .cls s) (s.pc.toNat + 2) { s with fb := 0#2048, dirty := true }

/-- `Dxyn` (44 R151): every cell a set sprite bit targets is inverted and no other; VF is 1 exactly when one of them was 1; DIRTY is
set; all else is unchanged. Coordinates are those before VF is written (spec's decision D3), no row draws nothing (D4), bit 7 is
the left column (D22). -/
def Obligations.DrawInvertsTheTargetedCells : Prop :=
  ∀ (s : State) (x y n : Nibble), s.pc.toNat + 2 ≤ 0xFFF → (n = 0x0#4 ∨ s.ireg.toNat + n.toNat - 1 ≤ 0xFFF) →
    ∃ t, exec (.drw x y n) s = .next t ∧
      (∀ p < 2048, s.SpriteTargets (s.reg x) (s.reg y) n.toNat p → t.cell p = !s.cell p) ∧
      (∀ p < 2048, ¬ s.SpriteTargets (s.reg x) (s.reg y) n.toNat p → t.cell p = s.cell p) ∧
      ((∃ p < 2048, s.SpriteTargets (s.reg x) (s.reg y) n.toNat p ∧ s.cell p = true) → t.reg 0xF#4 = 1#8) ∧
      ((∀ p < 2048, s.SpriteTargets (s.reg x) (s.reg y) n.toNat p → s.cell p = false) → t.reg 0xF#4 = 0#8) ∧
      (∀ r, r ≠ 0xF#4 → t.reg r = s.reg r) ∧
      t = { s with fb := t.fb, v := t.v, dirty := true, pc := BitVec.ofNat 12 (s.pc.toNat + 2), blocked := t.blocked,
                   report := t.report }

/-- Drawing the same sprite at the same place twice restores the framebuffer, and the second VF is 1 exactly when some set sprite
bit's cell was 0 before the first draw (44 R154, which the spec marks as derived). -/
def Obligations.DrawingTwiceRestoresTheFramebuffer : Prop :=
  ∀ (s t u : State) (x y n : Nibble), x ≠ 0xF#4 → y ≠ 0xF#4 → exec (.drw x y n) s = .next t → exec (.drw x y n) t = .next u →
    u.fb = s.fb ∧
    ((∃ p < 2048, s.SpriteTargets (s.reg x) (s.reg y) n.toNat p ∧ s.cell p = false) → u.reg 0xF#4 = 1#8) ∧
    ((∀ p < 2048, s.SpriteTargets (s.reg x) (s.reg y) n.toNat p → s.cell p = true) → u.reg 0xF#4 = 0#8)

/-- Where a sprite bit lands (44 R153, C2): column `X mod 64` of row `(Y + X div 64) mod 32`, so a horizontal overflow carries into
the next row; and no two bits of one sprite share a cell (R154). -/
def Obligations.SpriteBitsLandOnDistinctScreenCells : Prop :=
  ∀ (vx vy : Byte) (row col : Nat),
    cellIndex vx vy row col = ((vx.toNat + col) + (vy.toNat + row) * 64) % 2048 ∧
    cellIndex vx vy row col % 64 = (vx.toNat + col) % 64 ∧
    cellIndex vx vy row col / 64 = ((vy.toNat + row) + (vx.toNat + col) / 64) % 32 ∧
    ∀ row' col', row < 15 → row' < 15 → col < 8 → col' < 8 → cellIndex vx vy row col = cellIndex vx vy row' col' →
      row = row' ∧ col = col'

/-! ### Keys and timers (spec file 45) -/

/-- `Ex9E` and `ExA1` (45 R160, R161; an index above 15 faults by the spec's decision D9). -/
def Obligations.KeySkips : Prop :=
  ∀ (s : State) (x : Nibble) (k : Nat), k = (s.reg x).toNat →
    (k ≤ 15 →
      EndsAt (exec (.skp x) s) (if s.key k = true then s.pc.toNat + 4 else s.pc.toNat + 2) s ∧
      EndsAt (exec (.sknp x) s) (if s.key k = false then s.pc.toNat + 4 else s.pc.toNat + 2) s) ∧
    (15 < k → exec (.skp x) s = .fault (.keyIndexOutOfRange k) ∧ exec (.sknp x) s = .fault (.keyIndexOutOfRange k))

/-- `Fx0A` (45 R162): with no key it completes in place; otherwise the least pressed key goes to `V[x]`. -/
def Obligations.KeyWaitTakesTheLowestKey : Prop :=
  ∀ (s : State) (x : Nibble),
    (s.NoKey → Completes (exec (.wkey x) s) s) ∧
    (∀ k, s.LowestPressed k →
      EndsAt (exec (.wkey x) s) (s.pc.toNat + 2) { s with v := s.v.set x.toNat (BitVec.ofNat 8 k) x.isLt })

/-- While no key is pressed the wait holds through any number of steps and ticks, and the ticks go on counting the timers down
(45 R162 cases c and d, 70 R207). -/
def Obligations.KeyWaitHoldsWhileTicksGoOn : Prop :=
  ∀ (es : List Event) (s : State) (w : Word) (x : Nibble), fetch s = .ok w → decodeWord w = some (.wkey x) → s.NoKey →
    (∀ e ∈ es, e = .step ∨ e = .tick) →
    ∃ t, runEvents es s = .ok t ∧
      t = { s with dt := BitVec.ofNat 8 (s.dt.toNat - es.count .tick), st := BitVec.ofNat 8 (s.st.toNat - es.count .tick),
                   blocked := t.blocked, report := t.report }

/-- `Fx07`, `Fx15`, `Fx18` (45 R163, R164, R165). -/
def Obligations.TimerAccess : Prop :=
  ∀ (s : State) (x : Nibble),
    EndsAt (exec (.lddt x) s) (s.pc.toNat + 2) { s with v := s.v.set x.toNat s.dt x.isLt } ∧
    EndsAt (exec (.stdt x) s) (s.pc.toNat + 2) { s with dt := s.reg x } ∧
    EndsAt (exec (.stst x) s) (s.pc.toNat + 2) { s with st := s.reg x }

/-! ### Frames and whole-machine rules (10 R39, 45 R166, 70 R212) -/

/-- The access matrix of 10 R39, which the spec marks as derived: an element the matrix does not let an instruction
write holds what it held. For every instruction, every register, stack entry, key, pixel and every byte of memory (the draw counter is the model's, assumption 2). -/
def Obligations.InstructionsWriteOnlyWhatTheMatrixAllows : Prop :=
  ∀ (i : Instr) (s t : State) (e : Element), s.mem.wf → exec i s = .next t → mayWrite i s e = false → e.Same s t

/-- The timers change only by `Fx15`, `Fx18`, `tick` (45 R166) and `reset`, among the events of the spec's decision D1. -/
def Obligations.TimersChangeOnlyByTheirOwnEvents : Prop :=
  ∀ (e : Event) (s t : State) (r : Option Report), deliver e s = .ok (t, r) → e ≠ .tick → e ≠ .reset →
    (t.dt = s.dt ∨ e = .step ∧ ∃ w x, fetch s = .ok w ∧ decodeWord w = some (.stdt x) ∧ t.dt = s.reg x) ∧
    (t.st = s.st ∨ e = .step ∧ ∃ w x, fetch s = .ok w ∧ decodeWord w = some (.stst x) ∧ t.st = s.reg x)

/-- The dirty flag (10 R30, 60 R187, 70 R212): set by every `00E0` and `Dxyn` and by nothing else, cleared by `dirty_clear` and
`reset` and by nothing else, among the events of the spec's decision D1. -/
def Obligations.DirtyFlagProtocol : Prop :=
  ∀ (e : Event) (s t : State) (r : Option Report), deliver e s = .ok (t, r) →
    (t.dirty = true ↔ s.dirty = true ∧ e ≠ .dirtyClear ∧ e ≠ .reset ∨
      e = .step ∧ r = none ∧ ∃ w, fetch s = .ok w ∧
        (decodeWord w = some .cls ∨ ∃ x y n, decodeWord w = some (.drw x y n)))

/-- What only the host reads never steers the core: `BLOCKED`, the report, `DIRTY` and `ST` (10 R29, R30, R31). Two states that
differ only in them step to states that differ only in them, or fault alike (BLOCKED is the
spec's decision D15, the recorded report assumption 3). -/
def Obligations.StatusOutputsNeverSteerTheCore : Prop :=
  ∀ (s : State) (b d : Bool) (r : Option Undecodable) (c : Byte),
    (∀ f, step s = .fault f → step { s with blocked := b, report := r, dirty := d, st := c } = .fault f) ∧
    (∀ t, step s = .next t → ∃ d' c',
      step { s with blocked := b, report := r, dirty := d, st := c } = .next { t with dirty := d', st := c' })

/-! ### Host events and outputs (spec file 60) -/

/-- `tick` (60 R185): each timer independently by 1, clamped at 0, nothing else; so any number of ticks. -/
def Obligations.TicksCountTheTimersDown : Prop :=
  ∀ (s : State) (n : Nat),
    deliver .tick s = .ok ({ s with dt := BitVec.ofNat 8 (s.dt.toNat - 1), st := BitVec.ofNat 8 (s.st.toNat - 1) }, none) ∧
    runEvents (List.replicate n .tick) s =
      .ok { s with dt := BitVec.ofNat 8 (s.dt.toNat - n), st := BitVec.ofNat 8 (s.st.toNat - n) }

/-- `dirty_clear` clears DIRTY and changes nothing else; `dirty` shows DIRTY (60 R187); `sound` shows ST, audio while it is not 0
(60 R188). -/
def Obligations.DirtyClearAndSoundOutput : Prop :=
  ∀ s : State, deliver .dirtyClear s = .ok ({ s with dirty := false }, none) ∧ s.dirtyOut = s.dirty ∧
    s.soundOut = s.st ∧ (s.audioOn = true ↔ s.st.toNat ≠ 0)

/-- `key_press`, `key_release` (60 R184; the refusal above 15 is the spec's decision D23): one key set or cleared, nothing else,
idempotent. -/
def Obligations.KeyEventsSetAndClearOneKey : Prop :=
  ∀ (s : State) (k : Nat),
    (k < 16 →
      (∃ t, deliver (.keyPress k) s = .ok (t, none) ∧ (∀ j < 16, t.key j = if j = k then true else s.key j) ∧
        t = { s with keys := t.keys } ∧ deliver (.keyPress k) t = .ok (t, none)) ∧
      (∃ t, deliver (.keyRelease k) s = .ok (t, none) ∧ (∀ j < 16, t.key j = if j = k then false else s.key j) ∧
        t = { s with keys := t.keys } ∧ deliver (.keyRelease k) t = .ok (t, none))) ∧
    (16 ≤ k → deliver (.keyPress k) s = .error (.keyEventIndex k) ∧ deliver (.keyRelease k) s = .error (.keyEventIndex k))

/-- `load` (60 R183; the refusal and "nothing else changes" are the spec's decision D17): the image at 0x200, every other byte and
every other element as before. -/
def Obligations.LoadCopiesTheImage : Prop :=
  ∀ (s : State) (bytes : List Byte), s.mem.wf →
    (bytes.length ≤ 3584 → ∃ t, deliver (.load bytes) s = .ok (t, none) ∧
      (∀ j b, bytes[j]? = some b → t.mem.read (0x200 + j) = b) ∧
      (∀ a, a < 0x200 ∨ 0x200 + bytes.length ≤ a → t.mem.read a = s.mem.read a) ∧ t = { s with mem := t.mem }) ∧
    (3584 < bytes.length → deliver (.load bytes) s = .error (.imageTooLong bytes.length))

/-- The outputs `pixel` (60 R186), refused above 2047 (spec's decision D23), and `blocked` (60 R189, D15). -/
def Obligations.OutputsReadTheState : Prop :=
  ∀ (s : State) (p : Nat),
    (p < 2048 → s.pixel p = .ok (s.fb.getLsbD p)) ∧ (2048 ≤ p → s.pixel p = .error (.pixelIndex p)) ∧
    s.blockedOut = s.blocked
end

