-- ==== Sys2Proof/Laws/Decode.lean ====
section
/-! SUPPORT. The fields of a word put it together again, the fields of an encoded word are the operands, and the bytes of a word. -/

namespace Sys2Proof

/-- Every instruction is well formed: its field types carry the ranges of 30 R73. -/
theorem Instr.wf_all (i : Instr) : i.wf = true := by
  cases i <;> simp only [Instr.wf, Instr.fields, List.all_cons, List.all_nil, Bool.and_true, Bool.and_eq_true, fieldInRange,
    decide_eq_true_eq] <;> (try refine ⟨?_, ?_⟩) <;> (try refine ⟨?_, ?_⟩) <;> exact BitVec.isLt _

/-- The fields as numbers (30 R71). -/
theorem opOf_toNat (w : Word) : (opOf w).toNat = w.toNat / 4096 := by
  have := w.isLt
  simp [opOf, Nat.shiftRight_eq_div_pow]; omega

theorem xOf_toNat (w : Word) : (xOf w).toNat = w.toNat / 256 % 16 := by
  simp [xOf, Nat.shiftRight_eq_div_pow]

theorem yOf_toNat (w : Word) : (yOf w).toNat = w.toNat / 16 % 16 := by
  simp [yOf, Nat.shiftRight_eq_div_pow]

theorem nOf_toNat (w : Word) : (nOf w).toNat = w.toNat % 16 := by simp [nOf]

theorem kkOf_toNat (w : Word) : (kkOf w).toNat = w.toNat % 256 := by simp [kkOf]

theorem nnnOf_toNat (w : Word) : (nnnOf w).toNat = w.toNat % 4096 := by simp [nnnOf]

/-- A concatenation as a number: the first part above the second (00 R9). -/
theorem append_toNat {m n : Nat} (a : BitVec m) (b : BitVec n) : (a ++ b).toNat = a.toNat * 2 ^ n + b.toNat := by
  rw [BitVec.toNat_append, ← Nat.shiftLeft_add_eq_or_of_lt b.isLt, Nat.shiftLeft_eq]

/-- The formats as numbers (30 R72). -/
theorem formatA_toNat (op : Nibble) (nnn : Addr) : (formatA op nnn).toNat = op.toNat * 4096 + nnn.toNat :=
  append_toNat op nnn

theorem formatXK_toNat (op x : Nibble) (kk : Byte) :
    (formatXK op x kk).toNat = op.toNat * 4096 + x.toNat * 256 + kk.toNat := by
  have h1 : (op ++ x).toNat = op.toNat * 16 + x.toNat := append_toNat op x
  have h2 : (formatXK op x kk).toNat = (op ++ x).toNat * 256 + kk.toNat := append_toNat (op ++ x) kk
  rw [h2, h1, Nat.add_mul, Nat.mul_assoc]

theorem formatXYN_toNat (op x y n : Nibble) :
    (formatXYN op x y n).toNat = op.toNat * 4096 + x.toNat * 256 + y.toNat * 16 + n.toNat := by
  have h1 : (y ++ n).toNat = y.toNat * 16 + n.toNat := append_toNat y n
  have h2 : (formatXYN op x y n).toNat = op.toNat * 4096 + x.toNat * 256 + (y ++ n).toNat := formatXK_toNat op x (y ++ n)
  rw [h2, h1, ← Nat.add_assoc]

theorem wordOf_toNat (hi lo : Byte) : (wordOf hi lo).toNat = hi.toNat * 256 + lo.toNat := append_toNat hi lo

/-- A word is its family and its low twelve bits. -/
theorem formatA_fields (w : Word) : formatA (opOf w) (nnnOf w) = w := by
  apply BitVec.eq_of_toNat_eq
  have := w.isLt
  rw [formatA_toNat, opOf_toNat, nnnOf_toNat]
  omega

theorem formatXK_fields (w : Word) : formatXK (opOf w) (xOf w) (kkOf w) = w := by
  apply BitVec.eq_of_toNat_eq
  have := w.isLt
  rw [formatXK_toNat, opOf_toNat, xOf_toNat, kkOf_toNat]
  omega

theorem formatXYN_fields (w : Word) : formatXYN (opOf w) (xOf w) (yOf w) (nOf w) = w := by
  apply BitVec.eq_of_toNat_eq
  have := w.isLt
  rw [formatXYN_toNat, opOf_toNat, xOf_toNat, yOf_toNat, nOf_toNat]
  omega

section
variable (op x y n : Nibble) (kk : Byte) (nnn : Addr)

@[simp] theorem opOf_formatA : opOf (formatA op nnn) = op := by
  apply BitVec.eq_of_toNat_eq
  have := op.isLt
  have := nnn.isLt
  rw [opOf_toNat, formatA_toNat]; omega

@[simp] theorem nnnOf_formatA : nnnOf (formatA op nnn) = nnn := by
  apply BitVec.eq_of_toNat_eq
  have := nnn.isLt
  rw [nnnOf_toNat, formatA_toNat]; omega

@[simp] theorem opOf_formatXK : opOf (formatXK op x kk) = op := by
  apply BitVec.eq_of_toNat_eq
  have := op.isLt
  have := x.isLt
  have := kk.isLt
  rw [opOf_toNat, formatXK_toNat]; omega

@[simp] theorem xOf_formatXK : xOf (formatXK op x kk) = x := by
  apply BitVec.eq_of_toNat_eq
  have := x.isLt
  have := kk.isLt
  rw [xOf_toNat, formatXK_toNat]; omega

@[simp] theorem kkOf_formatXK : kkOf (formatXK op x kk) = kk := by
  apply BitVec.eq_of_toNat_eq
  have := kk.isLt
  rw [kkOf_toNat, formatXK_toNat]; omega

@[simp] theorem opOf_formatXYN : opOf (formatXYN op x y n) = op := by
  apply BitVec.eq_of_toNat_eq
  have := op.isLt
  have := x.isLt
  have := y.isLt
  have := n.isLt
  rw [opOf_toNat, formatXYN_toNat]; omega

@[simp] theorem xOf_formatXYN : xOf (formatXYN op x y n) = x := by
  apply BitVec.eq_of_toNat_eq
  have := x.isLt
  have := y.isLt
  have := n.isLt
  rw [xOf_toNat, formatXYN_toNat]; omega

@[simp] theorem yOf_formatXYN : yOf (formatXYN op x y n) = y := by
  apply BitVec.eq_of_toNat_eq
  have := y.isLt
  have := n.isLt
  rw [yOf_toNat, formatXYN_toNat]; omega

@[simp] theorem nOf_formatXYN : nOf (formatXYN op x y n) = n := by
  apply BitVec.eq_of_toNat_eq
  have := n.isLt
  rw [nOf_toNat, formatXYN_toNat]; omega

end

/-- A word is its two bytes, the high one first (20 R51). -/
theorem wordOf_bytes (w : Word) : wordOf (w.extractLsb' 8 8) (w.extractLsb' 0 8) = w := by
  apply BitVec.eq_of_toNat_eq
  have := w.isLt
  rw [wordOf_toNat]
  simp [Nat.shiftRight_eq_div_pow]
  omega

end Sys2Proof
end

