-- ==== Sys2Proof/Laws/State.lean ====
section
/-! SUPPORT. One lemma per field per update of the state, true by rfl, and what the accessors read after each update. -/

namespace Sys2Proof.Machine

variable (s : State)

/-! ### setReg -/

@[simp] theorem State.setReg_v (x : Nibble) (b : Byte) : (s.setReg x b).v = s.v.set x.toNat b x.isLt := rfl
@[simp] theorem State.setReg_pc (x : Nibble) (b : Byte) : (s.setReg x b).pc = s.pc := rfl
@[simp] theorem State.setReg_ireg (x : Nibble) (b : Byte) : (s.setReg x b).ireg = s.ireg := rfl
@[simp] theorem State.setReg_stack (x : Nibble) (b : Byte) : (s.setReg x b).stack = s.stack := rfl
@[simp] theorem State.setReg_sp (x : Nibble) (b : Byte) : (s.setReg x b).sp = s.sp := rfl
@[simp] theorem State.setReg_dt (x : Nibble) (b : Byte) : (s.setReg x b).dt = s.dt := rfl
@[simp] theorem State.setReg_st (x : Nibble) (b : Byte) : (s.setReg x b).st = s.st := rfl
@[simp] theorem State.setReg_keys (x : Nibble) (b : Byte) : (s.setReg x b).keys = s.keys := rfl
@[simp] theorem State.setReg_fb (x : Nibble) (b : Byte) : (s.setReg x b).fb = s.fb := rfl
@[simp] theorem State.setReg_dirty (x : Nibble) (b : Byte) : (s.setReg x b).dirty = s.dirty := rfl
@[simp] theorem State.setReg_blocked (x : Nibble) (b : Byte) : (s.setReg x b).blocked = s.blocked := rfl
@[simp] theorem State.setReg_mem (x : Nibble) (b : Byte) : (s.setReg x b).mem = s.mem := rfl
@[simp] theorem State.setReg_draws (x : Nibble) (b : Byte) : (s.setReg x b).draws = s.draws := rfl
@[simp] theorem State.setReg_report (x : Nibble) (b : Byte) : (s.setReg x b).report = s.report := rfl

/-! ### setFlag -/

@[simp] theorem State.setFlag_v (f : Bool) : (s.setFlag f).v = s.v.set 15 (if f then 1#8 else 0#8) := rfl
@[simp] theorem State.setFlag_pc (f : Bool) : (s.setFlag f).pc = s.pc := rfl
@[simp] theorem State.setFlag_ireg (f : Bool) : (s.setFlag f).ireg = s.ireg := rfl
@[simp] theorem State.setFlag_stack (f : Bool) : (s.setFlag f).stack = s.stack := rfl
@[simp] theorem State.setFlag_sp (f : Bool) : (s.setFlag f).sp = s.sp := rfl
@[simp] theorem State.setFlag_dt (f : Bool) : (s.setFlag f).dt = s.dt := rfl
@[simp] theorem State.setFlag_st (f : Bool) : (s.setFlag f).st = s.st := rfl
@[simp] theorem State.setFlag_keys (f : Bool) : (s.setFlag f).keys = s.keys := rfl
@[simp] theorem State.setFlag_fb (f : Bool) : (s.setFlag f).fb = s.fb := rfl
@[simp] theorem State.setFlag_dirty (f : Bool) : (s.setFlag f).dirty = s.dirty := rfl
@[simp] theorem State.setFlag_blocked (f : Bool) : (s.setFlag f).blocked = s.blocked := rfl
@[simp] theorem State.setFlag_mem (f : Bool) : (s.setFlag f).mem = s.mem := rfl
@[simp] theorem State.setFlag_draws (f : Bool) : (s.setFlag f).draws = s.draws := rfl
@[simp] theorem State.setFlag_report (f : Bool) : (s.setFlag f).report = s.report := rfl

/-! ### setI -/

@[simp] theorem State.setI_v (a : Addr) : (s.setI a).v = s.v := rfl
@[simp] theorem State.setI_pc (a : Addr) : (s.setI a).pc = s.pc := rfl
@[simp] theorem State.setI_ireg (a : Addr) : (s.setI a).ireg = a := rfl
@[simp] theorem State.setI_stack (a : Addr) : (s.setI a).stack = s.stack := rfl
@[simp] theorem State.setI_sp (a : Addr) : (s.setI a).sp = s.sp := rfl
@[simp] theorem State.setI_dt (a : Addr) : (s.setI a).dt = s.dt := rfl
@[simp] theorem State.setI_st (a : Addr) : (s.setI a).st = s.st := rfl
@[simp] theorem State.setI_keys (a : Addr) : (s.setI a).keys = s.keys := rfl
@[simp] theorem State.setI_fb (a : Addr) : (s.setI a).fb = s.fb := rfl
@[simp] theorem State.setI_dirty (a : Addr) : (s.setI a).dirty = s.dirty := rfl
@[simp] theorem State.setI_blocked (a : Addr) : (s.setI a).blocked = s.blocked := rfl
@[simp] theorem State.setI_mem (a : Addr) : (s.setI a).mem = s.mem := rfl
@[simp] theorem State.setI_draws (a : Addr) : (s.setI a).draws = s.draws := rfl
@[simp] theorem State.setI_report (a : Addr) : (s.setI a).report = s.report := rfl

/-! ### setDt -/

@[simp] theorem State.setDt_v (b : Byte) : (s.setDt b).v = s.v := rfl
@[simp] theorem State.setDt_pc (b : Byte) : (s.setDt b).pc = s.pc := rfl
@[simp] theorem State.setDt_ireg (b : Byte) : (s.setDt b).ireg = s.ireg := rfl
@[simp] theorem State.setDt_stack (b : Byte) : (s.setDt b).stack = s.stack := rfl
@[simp] theorem State.setDt_sp (b : Byte) : (s.setDt b).sp = s.sp := rfl
@[simp] theorem State.setDt_dt (b : Byte) : (s.setDt b).dt = b := rfl
@[simp] theorem State.setDt_st (b : Byte) : (s.setDt b).st = s.st := rfl
@[simp] theorem State.setDt_keys (b : Byte) : (s.setDt b).keys = s.keys := rfl
@[simp] theorem State.setDt_fb (b : Byte) : (s.setDt b).fb = s.fb := rfl
@[simp] theorem State.setDt_dirty (b : Byte) : (s.setDt b).dirty = s.dirty := rfl
@[simp] theorem State.setDt_blocked (b : Byte) : (s.setDt b).blocked = s.blocked := rfl
@[simp] theorem State.setDt_mem (b : Byte) : (s.setDt b).mem = s.mem := rfl
@[simp] theorem State.setDt_draws (b : Byte) : (s.setDt b).draws = s.draws := rfl
@[simp] theorem State.setDt_report (b : Byte) : (s.setDt b).report = s.report := rfl

/-! ### setSt -/

@[simp] theorem State.setSt_v (b : Byte) : (s.setSt b).v = s.v := rfl
@[simp] theorem State.setSt_pc (b : Byte) : (s.setSt b).pc = s.pc := rfl
@[simp] theorem State.setSt_ireg (b : Byte) : (s.setSt b).ireg = s.ireg := rfl
@[simp] theorem State.setSt_stack (b : Byte) : (s.setSt b).stack = s.stack := rfl
@[simp] theorem State.setSt_sp (b : Byte) : (s.setSt b).sp = s.sp := rfl
@[simp] theorem State.setSt_dt (b : Byte) : (s.setSt b).dt = s.dt := rfl
@[simp] theorem State.setSt_st (b : Byte) : (s.setSt b).st = b := rfl
@[simp] theorem State.setSt_keys (b : Byte) : (s.setSt b).keys = s.keys := rfl
@[simp] theorem State.setSt_fb (b : Byte) : (s.setSt b).fb = s.fb := rfl
@[simp] theorem State.setSt_dirty (b : Byte) : (s.setSt b).dirty = s.dirty := rfl
@[simp] theorem State.setSt_blocked (b : Byte) : (s.setSt b).blocked = s.blocked := rfl
@[simp] theorem State.setSt_mem (b : Byte) : (s.setSt b).mem = s.mem := rfl
@[simp] theorem State.setSt_draws (b : Byte) : (s.setSt b).draws = s.draws := rfl
@[simp] theorem State.setSt_report (b : Byte) : (s.setSt b).report = s.report := rfl

/-! ### setFb -/

@[simp] theorem State.setFb_v (f : BitVec 2048) : (s.setFb f).v = s.v := rfl
@[simp] theorem State.setFb_pc (f : BitVec 2048) : (s.setFb f).pc = s.pc := rfl
@[simp] theorem State.setFb_ireg (f : BitVec 2048) : (s.setFb f).ireg = s.ireg := rfl
@[simp] theorem State.setFb_stack (f : BitVec 2048) : (s.setFb f).stack = s.stack := rfl
@[simp] theorem State.setFb_sp (f : BitVec 2048) : (s.setFb f).sp = s.sp := rfl
@[simp] theorem State.setFb_dt (f : BitVec 2048) : (s.setFb f).dt = s.dt := rfl
@[simp] theorem State.setFb_st (f : BitVec 2048) : (s.setFb f).st = s.st := rfl
@[simp] theorem State.setFb_keys (f : BitVec 2048) : (s.setFb f).keys = s.keys := rfl
@[simp] theorem State.setFb_fb (f : BitVec 2048) : (s.setFb f).fb = f := rfl
@[simp] theorem State.setFb_dirty (f : BitVec 2048) : (s.setFb f).dirty = s.dirty := rfl
@[simp] theorem State.setFb_blocked (f : BitVec 2048) : (s.setFb f).blocked = s.blocked := rfl
@[simp] theorem State.setFb_mem (f : BitVec 2048) : (s.setFb f).mem = s.mem := rfl
@[simp] theorem State.setFb_draws (f : BitVec 2048) : (s.setFb f).draws = s.draws := rfl
@[simp] theorem State.setFb_report (f : BitVec 2048) : (s.setFb f).report = s.report := rfl

/-! ### setDirty -/

@[simp] theorem State.setDirty_v (d : Bool) : (s.setDirty d).v = s.v := rfl
@[simp] theorem State.setDirty_pc (d : Bool) : (s.setDirty d).pc = s.pc := rfl
@[simp] theorem State.setDirty_ireg (d : Bool) : (s.setDirty d).ireg = s.ireg := rfl
@[simp] theorem State.setDirty_stack (d : Bool) : (s.setDirty d).stack = s.stack := rfl
@[simp] theorem State.setDirty_sp (d : Bool) : (s.setDirty d).sp = s.sp := rfl
@[simp] theorem State.setDirty_dt (d : Bool) : (s.setDirty d).dt = s.dt := rfl
@[simp] theorem State.setDirty_st (d : Bool) : (s.setDirty d).st = s.st := rfl
@[simp] theorem State.setDirty_keys (d : Bool) : (s.setDirty d).keys = s.keys := rfl
@[simp] theorem State.setDirty_fb (d : Bool) : (s.setDirty d).fb = s.fb := rfl
@[simp] theorem State.setDirty_dirty (d : Bool) : (s.setDirty d).dirty = d := rfl
@[simp] theorem State.setDirty_blocked (d : Bool) : (s.setDirty d).blocked = s.blocked := rfl
@[simp] theorem State.setDirty_mem (d : Bool) : (s.setDirty d).mem = s.mem := rfl
@[simp] theorem State.setDirty_draws (d : Bool) : (s.setDirty d).draws = s.draws := rfl
@[simp] theorem State.setDirty_report (d : Bool) : (s.setDirty d).report = s.report := rfl

/-! ### setKey -/

@[simp] theorem State.setKey_v (k : Nat) (b : Bool) : (s.setKey k b).v = s.v := rfl
@[simp] theorem State.setKey_pc (k : Nat) (b : Bool) : (s.setKey k b).pc = s.pc := rfl
@[simp] theorem State.setKey_ireg (k : Nat) (b : Bool) : (s.setKey k b).ireg = s.ireg := rfl
@[simp] theorem State.setKey_stack (k : Nat) (b : Bool) : (s.setKey k b).stack = s.stack := rfl
@[simp] theorem State.setKey_sp (k : Nat) (b : Bool) : (s.setKey k b).sp = s.sp := rfl
@[simp] theorem State.setKey_dt (k : Nat) (b : Bool) : (s.setKey k b).dt = s.dt := rfl
@[simp] theorem State.setKey_st (k : Nat) (b : Bool) : (s.setKey k b).st = s.st := rfl
@[simp] theorem State.setKey_keys (k : Nat) (b : Bool) : (s.setKey k b).keys = s.keys.setIfInBounds k b := rfl
@[simp] theorem State.setKey_fb (k : Nat) (b : Bool) : (s.setKey k b).fb = s.fb := rfl
@[simp] theorem State.setKey_dirty (k : Nat) (b : Bool) : (s.setKey k b).dirty = s.dirty := rfl
@[simp] theorem State.setKey_blocked (k : Nat) (b : Bool) : (s.setKey k b).blocked = s.blocked := rfl
@[simp] theorem State.setKey_mem (k : Nat) (b : Bool) : (s.setKey k b).mem = s.mem := rfl
@[simp] theorem State.setKey_draws (k : Nat) (b : Bool) : (s.setKey k b).draws = s.draws := rfl
@[simp] theorem State.setKey_report (k : Nat) (b : Bool) : (s.setKey k b).report = s.report := rfl

/-! ### push -/

@[simp] theorem State.push_v (a : Addr) : (s.push a).v = s.v := rfl
@[simp] theorem State.push_pc (a : Addr) : (s.push a).pc = s.pc := rfl
@[simp] theorem State.push_ireg (a : Addr) : (s.push a).ireg = s.ireg := rfl
@[simp] theorem State.push_stack (a : Addr) : (s.push a).stack = s.stack.setIfInBounds s.sp.toNat a := rfl
@[simp] theorem State.push_sp (a : Addr) : (s.push a).sp = s.sp + 1#5 := rfl
@[simp] theorem State.push_dt (a : Addr) : (s.push a).dt = s.dt := rfl
@[simp] theorem State.push_st (a : Addr) : (s.push a).st = s.st := rfl
@[simp] theorem State.push_keys (a : Addr) : (s.push a).keys = s.keys := rfl
@[simp] theorem State.push_fb (a : Addr) : (s.push a).fb = s.fb := rfl
@[simp] theorem State.push_dirty (a : Addr) : (s.push a).dirty = s.dirty := rfl
@[simp] theorem State.push_blocked (a : Addr) : (s.push a).blocked = s.blocked := rfl
@[simp] theorem State.push_mem (a : Addr) : (s.push a).mem = s.mem := rfl
@[simp] theorem State.push_draws (a : Addr) : (s.push a).draws = s.draws := rfl
@[simp] theorem State.push_report (a : Addr) : (s.push a).report = s.report := rfl

/-! ### pop -/

@[simp] theorem State.pop_v : s.pop.v = s.v := rfl
@[simp] theorem State.pop_pc : s.pop.pc = s.pc := rfl
@[simp] theorem State.pop_ireg : s.pop.ireg = s.ireg := rfl
@[simp] theorem State.pop_stack : s.pop.stack = s.stack := rfl
@[simp] theorem State.pop_sp : s.pop.sp = s.sp - 1#5 := rfl
@[simp] theorem State.pop_dt : s.pop.dt = s.dt := rfl
@[simp] theorem State.pop_st : s.pop.st = s.st := rfl
@[simp] theorem State.pop_keys : s.pop.keys = s.keys := rfl
@[simp] theorem State.pop_fb : s.pop.fb = s.fb := rfl
@[simp] theorem State.pop_dirty : s.pop.dirty = s.dirty := rfl
@[simp] theorem State.pop_blocked : s.pop.blocked = s.blocked := rfl
@[simp] theorem State.pop_mem : s.pop.mem = s.mem := rfl
@[simp] theorem State.pop_draws : s.pop.draws = s.draws := rfl
@[simp] theorem State.pop_report : s.pop.report = s.report := rfl

/-! ### store -/

@[simp] theorem State.store_v (a : Nat) (bs : List Byte) : (s.store a bs).v = s.v := rfl
@[simp] theorem State.store_pc (a : Nat) (bs : List Byte) : (s.store a bs).pc = s.pc := rfl
@[simp] theorem State.store_ireg (a : Nat) (bs : List Byte) : (s.store a bs).ireg = s.ireg := rfl
@[simp] theorem State.store_stack (a : Nat) (bs : List Byte) : (s.store a bs).stack = s.stack := rfl
@[simp] theorem State.store_sp (a : Nat) (bs : List Byte) : (s.store a bs).sp = s.sp := rfl
@[simp] theorem State.store_dt (a : Nat) (bs : List Byte) : (s.store a bs).dt = s.dt := rfl
@[simp] theorem State.store_st (a : Nat) (bs : List Byte) : (s.store a bs).st = s.st := rfl
@[simp] theorem State.store_keys (a : Nat) (bs : List Byte) : (s.store a bs).keys = s.keys := rfl
@[simp] theorem State.store_fb (a : Nat) (bs : List Byte) : (s.store a bs).fb = s.fb := rfl
@[simp] theorem State.store_dirty (a : Nat) (bs : List Byte) : (s.store a bs).dirty = s.dirty := rfl
@[simp] theorem State.store_blocked (a : Nat) (bs : List Byte) : (s.store a bs).blocked = s.blocked := rfl
@[simp] theorem State.store_mem (a : Nat) (bs : List Byte) : (s.store a bs).mem = s.mem.writeBytes a bs := rfl
@[simp] theorem State.store_draws (a : Nat) (bs : List Byte) : (s.store a bs).draws = s.draws := rfl
@[simp] theorem State.store_report (a : Nat) (bs : List Byte) : (s.store a bs).report = s.report := rfl

/-! ### drawn -/

@[simp] theorem State.drawn_v : s.drawn.v = s.v := rfl
@[simp] theorem State.drawn_pc : s.drawn.pc = s.pc := rfl
@[simp] theorem State.drawn_ireg : s.drawn.ireg = s.ireg := rfl
@[simp] theorem State.drawn_stack : s.drawn.stack = s.stack := rfl
@[simp] theorem State.drawn_sp : s.drawn.sp = s.sp := rfl
@[simp] theorem State.drawn_dt : s.drawn.dt = s.dt := rfl
@[simp] theorem State.drawn_st : s.drawn.st = s.st := rfl
@[simp] theorem State.drawn_keys : s.drawn.keys = s.keys := rfl
@[simp] theorem State.drawn_fb : s.drawn.fb = s.fb := rfl
@[simp] theorem State.drawn_dirty : s.drawn.dirty = s.dirty := rfl
@[simp] theorem State.drawn_blocked : s.drawn.blocked = s.blocked := rfl
@[simp] theorem State.drawn_mem : s.drawn.mem = s.mem := rfl
@[simp] theorem State.drawn_draws : s.drawn.draws = s.draws + 1 := rfl
@[simp] theorem State.drawn_report : s.drawn.report = s.report := rfl

/-! ### loadRegs -/

/-- Loading registers changes `v` alone. -/
theorem State.loadRegs_eq (a n : Nat) : s.loadRegs a n = { s with v := (s.loadRegs a n).v } := by
  induction n with
  | zero => rfl
  | succ n ih => rw [State.loadRegs, ih]; rfl

@[simp] theorem State.loadRegs_pc (a n : Nat) : (s.loadRegs a n).pc = s.pc := by rw [State.loadRegs_eq]
@[simp] theorem State.loadRegs_ireg (a n : Nat) : (s.loadRegs a n).ireg = s.ireg := by rw [State.loadRegs_eq]
@[simp] theorem State.loadRegs_stack (a n : Nat) : (s.loadRegs a n).stack = s.stack := by rw [State.loadRegs_eq]
@[simp] theorem State.loadRegs_sp (a n : Nat) : (s.loadRegs a n).sp = s.sp := by rw [State.loadRegs_eq]
@[simp] theorem State.loadRegs_dt (a n : Nat) : (s.loadRegs a n).dt = s.dt := by rw [State.loadRegs_eq]
@[simp] theorem State.loadRegs_st (a n : Nat) : (s.loadRegs a n).st = s.st := by rw [State.loadRegs_eq]
@[simp] theorem State.loadRegs_keys (a n : Nat) : (s.loadRegs a n).keys = s.keys := by rw [State.loadRegs_eq]
@[simp] theorem State.loadRegs_fb (a n : Nat) : (s.loadRegs a n).fb = s.fb := by rw [State.loadRegs_eq]
@[simp] theorem State.loadRegs_dirty (a n : Nat) : (s.loadRegs a n).dirty = s.dirty := by rw [State.loadRegs_eq]
@[simp] theorem State.loadRegs_blocked (a n : Nat) : (s.loadRegs a n).blocked = s.blocked := by rw [State.loadRegs_eq]
@[simp] theorem State.loadRegs_mem (a n : Nat) : (s.loadRegs a n).mem = s.mem := by rw [State.loadRegs_eq]
@[simp] theorem State.loadRegs_draws (a n : Nat) : (s.loadRegs a n).draws = s.draws := by rw [State.loadRegs_eq]
@[simp] theorem State.loadRegs_report (a n : Nat) : (s.loadRegs a n).report = s.report := by rw [State.loadRegs_eq]

/-! ### What the accessors read after an update -/

@[simp] theorem State.reg_setReg (x y : Nibble) (b : Byte) :
    (s.setReg x b).reg y = if y = x then b else s.reg y := by
  simp only [State.reg, State.setReg_v, Vector.getElem_set]
  by_cases h : y = x
  · subst h; simp
  · have : x.toNat ≠ y.toNat := fun e => h (BitVec.eq_of_toNat_eq e.symm)
    simp [h, this]

@[simp] theorem State.reg_setFlag (f : Bool) (y : Nibble) :
    (s.setFlag f).reg y = if y = 0xF#4 then (if f then 1#8 else 0#8) else s.reg y := by
  simp [State.setFlag]

/-- The registers decide `v`. -/
theorem State.v_ext {s t : State} (h : ∀ x, t.reg x = s.reg x) : t.v = s.v := by
  apply Vector.ext
  intro k hk
  have := h (BitVec.ofNat 4 k)
  have hk' : (BitVec.ofNat 4 k).toNat = k := by simp; omega
  simpa [State.reg, hk'] using this

@[simp] theorem State.key_setKey (k j : Nat) (b : Bool) (h : k < 16) :
    (s.setKey k b).key j = if j = k then b else s.key j := by
  simp only [State.key, State.setKey_keys, Vector.getElem?_setIfInBounds]
  by_cases e : j = k
  · subst e; simp [h]
  · simp [e, Ne.symm e]

@[simp] theorem State.stackAt_push (a : Addr) (k : Nat) (h : s.sp.toNat < 16) :
    (s.push a).stackAt k = if k = s.sp.toNat then a else s.stackAt k := by
  simp only [State.stackAt, State.push_stack, Vector.getElem?_setIfInBounds]
  by_cases e : k = s.sp.toNat
  · subst e; simp [h]
  · simp [e, Ne.symm e]

/-- `V[k]` after loading `n` registers: the loaded byte below `n`, the old value from `n` on (43 R145). -/
theorem State.reg_loadRegs (a n : Nat) (hn : n ≤ 16) (x : Nibble) :
    (s.loadRegs a n).reg x = if x.toNat < n then s.mem.read (a + x.toNat) else s.reg x := by
  induction n with
  | zero => simp [State.loadRegs]
  | succ n ih =>
    rw [State.loadRegs, State.reg_setReg, ih (by omega)]
    by_cases e : x = BitVec.ofNat 4 n
    · have : x.toNat = n := by rw [e]; simp; omega
      simp [e]; rw [show n % 16 = n by omega]; simp
    · have : x.toNat ≠ n := fun h => e (by rw [← h]; simp)
      simp only [e, if_false]
      by_cases h : x.toNat < n
      · simp [h, Nat.lt_succ_of_lt h]
      · simp [h]; omega

/-- The `k`th of the stored registers is `V[k]` (43 R144). -/
theorem State.firstRegs_getElem? (x : Nibble) (k : Nat) (hk : k ≤ x.toNat) :
    (s.firstRegs x)[k]? = some (s.reg (BitVec.ofNat 4 k)) := by
  have hx := x.isLt
  have hk16 : k < 16 := by omega
  have hk' : (BitVec.ofNat 4 k).toNat = k := by simp; omega
  rw [State.firstRegs, List.getElem?_take_of_lt (by omega)]
  simp [State.reg, hk', hk16]

@[simp] theorem State.firstRegs_length (x : Nibble) : (s.firstRegs x).length = x.toNat + 1 := by
  have hx := x.isLt
  simp [State.firstRegs]; omega

@[simp] theorem decimalDigits_length (b : Byte) : (decimalDigits b).length = 3 := rfl

end Sys2Proof.Machine
end

