-- ==== Sys2Proof/Laws/Memory.lean ====
section
/-! SUPPORT. The laws of memory: a read after a write, and every operation keeps the canonical form. -/

namespace Sys2Proof.Machine

@[simp] theorem Memory.read_nil (a : Nat) : Memory.read [] a = Memory.unlisted a := rfl

theorem Memory.read_cons (a c : Nat) (b : Byte) (m : Memory) :
    Memory.read ((c, b) :: m) a = if a = c then b else Memory.read m a := rfl

/-- An address below every listed one reads as unlisted. -/
theorem Memory.read_of_lt (m : Memory) (a : Nat) (h : ∀ p ∈ m, a < p.1) : m.read a = Memory.unlisted a := by
  induction m with
  | nil => rfl
  | cons p m ih =>
    obtain ⟨c, b⟩ := p
    have hc : a < c := h (c, b) (by simp)
    rw [Memory.read_cons, if_neg (by omega)]
    exact ih (fun q hq => h q (by simp [hq]))

/-- The addresses of a sorted list rise: the head is below the rest. -/
abbrev Memory.sorted (m : Memory) : Prop := m.Pairwise (fun p q => p.1 < q.1)

theorem Memory.read_cons_op (a : Nat) (b : Byte) (m : Memory) (h : ∀ p ∈ m, a < p.1) (c : Nat) :
    (Memory.cons a b m).read c = if c = a then b else m.read c := by
  unfold Memory.cons
  split
  · next e =>
    by_cases hc : c = a
    · subst hc; rw [Memory.read_of_lt m c h]; simp [e]
    · simp [hc]
  · exact Memory.read_cons c a b m

theorem Memory.read_insert (a : Nat) (b : Byte) (m : Memory) (h : m.sorted) (c : Nat) :
    (Memory.insert a b m).read c = if c = a then b else m.read c := by
  induction m with
  | nil => exact Memory.read_cons_op a b [] (by simp) c
  | cons p m ih =>
    obtain ⟨d, w⟩ := p
    have hm := List.pairwise_cons.mp h
    unfold Memory.insert
    split
    · next hlt =>
      refine Memory.read_cons_op a b _ ?_ c
      intro q hq
      rcases List.mem_cons.mp hq with rfl | hq
      · exact hlt
      · exact Nat.lt_trans hlt (hm.1 q hq)
    · split
      · next hne heq =>
        subst heq
        rw [Memory.read_cons_op a b m (fun q hq => hm.1 q hq) c, Memory.read_cons]
        by_cases hc : c = a <;> simp [hc]
      · next hlt hne =>
        rw [Memory.read_cons, Memory.read_cons, ih hm.2]
        by_cases hc : c = d
        · subst hc; simp [Ne.symm hne]
        · simp [hc]

/-- A read after a write: the byte written at its address, every other byte as before. -/
theorem Memory.read_write (m : Memory) (h : m.sorted) (a : Nat) (b : Byte) (ha : a ≤ 0xFFF) (c : Nat) :
    (m.write a b).read c = if c = a then b else m.read c := by
  rw [Memory.write, if_pos ha]
  exact Memory.read_insert a b m h c

theorem Memory.mem_cons_op {a : Nat} {b : Byte} {m : Memory} {p : Host.Cell} (h : p ∈ Memory.cons a b m) :
    (p = (a, b) ∧ b ≠ Memory.unlisted a) ∨ p ∈ m := by
  unfold Memory.cons at h
  split at h
  · exact .inr h
  · next e =>
    rcases List.mem_cons.mp h with rfl | h
    · exact .inl ⟨rfl, e⟩
    · exact .inr h

theorem Memory.mem_insert {a : Nat} {b : Byte} {m : Memory} {p : Host.Cell} (h : p ∈ Memory.insert a b m) :
    (p = (a, b) ∧ b ≠ Memory.unlisted a) ∨ p ∈ m := by
  induction m with
  | nil => exact Memory.mem_cons_op h
  | cons q m ih =>
    obtain ⟨d, w⟩ := q
    unfold Memory.insert at h
    split at h
    · exact Memory.mem_cons_op h
    · split at h
      · rcases Memory.mem_cons_op h with h | h
        · exact .inl h
        · exact .inr (List.mem_cons_of_mem _ h)
      · rcases List.mem_cons.mp h with rfl | h
        · exact .inr (by simp)
        · rcases ih h with h | h
          · exact .inl h
          · exact .inr (List.mem_cons_of_mem _ h)

theorem Memory.cons_sorted (a : Nat) (b : Byte) (m : Memory) (h : m.sorted) (ha : ∀ p ∈ m, a < p.1) :
    (Memory.cons a b m).sorted := by
  unfold Memory.cons
  split
  · exact h
  · exact List.pairwise_cons.mpr ⟨ha, h⟩

theorem Memory.insert_sorted (a : Nat) (b : Byte) (m : Memory) (h : m.sorted) : (Memory.insert a b m).sorted := by
  induction m with
  | nil => exact Memory.cons_sorted a b [] h (by simp)
  | cons p m ih =>
    obtain ⟨d, w⟩ := p
    have hm := List.pairwise_cons.mp h
    unfold Memory.insert
    split
    · next hlt =>
      refine Memory.cons_sorted a b _ h ?_
      intro q hq
      rcases List.mem_cons.mp hq with rfl | hq
      · exact hlt
      · exact Nat.lt_trans hlt (hm.1 q hq)
    · split
      · next heq => subst heq; exact Memory.cons_sorted a b m hm.2 hm.1
      · next hlt hne =>
        refine List.pairwise_cons.mpr ⟨?_, ih hm.2⟩
        intro q hq
        rcases Memory.mem_insert hq with ⟨rfl, -⟩ | hq
        · show d < a; omega
        · exact hm.1 q hq

/-- A write keeps the canonical form. -/
theorem Memory.write_wf (m : Memory) (h : m.wf) (a : Nat) (b : Byte) : (m.write a b).wf := by
  unfold Memory.write
  split
  · next ha =>
    refine ⟨Memory.insert_sorted a b m h.1, ?_⟩
    intro p hp
    rcases Memory.mem_insert hp with ⟨rfl, hb⟩ | hp
    · exact ⟨ha, hb⟩
    · exact h.2 p hp
  · exact h

/-- Writing consecutive bytes keeps the canonical form. -/
theorem Memory.writeBytes_wf (m : Memory) (h : m.wf) (a : Nat) (bs : List Byte) : (m.writeBytes a bs).wf := by
  induction bs generalizing m a with
  | nil => exact h
  | cons b bs ih => exact ih _ (Memory.write_wf m h a b) _

/-- Reading after writing consecutive bytes: the byte of the list inside the block, the old byte outside it. -/
theorem Memory.read_writeBytes (m : Memory) (h : m.wf) (a : Nat) (bs : List Byte) (ha : a + bs.length ≤ 0x1000) (c : Nat) :
    (m.writeBytes a bs).read c = if a ≤ c then (bs[c - a]?).getD (m.read c) else m.read c := by
  induction bs generalizing m a with
  | nil => simp [Memory.writeBytes]
  | cons b bs ih =>
    rw [List.length_cons] at ha
    rw [Memory.writeBytes, ih _ (Memory.write_wf m h a b) _ (by omega), Memory.read_write m h.1 a b (by omega)]
    rcases Nat.lt_trichotomy c a with hlt | rfl | hgt
    · rw [if_neg (by omega), if_neg (by omega), if_neg (by omega)]
    · rw [if_neg (by omega), if_pos rfl, if_pos (by omega)]; simp
    · have e : c - a = (c - (a + 1)) + 1 := by omega
      rw [if_pos (by omega), if_neg (by omega), if_pos (by omega), e, List.getElem?_cons_succ]

/-- Outside the stored block every byte reads as before. -/
theorem Memory.read_writeBytes_other (m : Memory) (h : m.wf) (a : Nat) (bs : List Byte) (ha : a + bs.length ≤ 0x1000)
    (c : Nat) (hc : c < a ∨ a + bs.length ≤ c) : (m.writeBytes a bs).read c = m.read c := by
  rw [Memory.read_writeBytes m h a bs ha]
  split
  · next hle => rw [List.getElem?_eq_none (by omega)]; rfl
  · rfl

/-- What reset leaves in the font region: the parameter `FONT` (10 R38). -/
theorem Memory.unlisted_of_lt {a : Nat} (h : a < 80) : Memory.unlisted a = fontByte a := if_pos h

/-- What reset leaves above the font region (10 R38). -/
theorem Memory.unlisted_of_ge {a : Nat} (h : 80 ≤ a) : Memory.unlisted a = 0#8 := if_neg (Nat.not_lt.mpr h)

/-- Under the default font, the font region reads as the table of 10 R33 after reset. -/
theorem DefaultFont.unlisted (hf : DefaultFont) {a : Nat} (h : a < 80) : Memory.unlisted a = fontTable.getD a 0#8 :=
  (Memory.unlisted_of_lt h).trans (hf a h)

/-- The memory after reset is canonical. -/
theorem Memory.wf_nil : Memory.wf [] := by simp [Memory.wf]

end Sys2Proof.Machine
end

