-- ==== Sys2Proof/Laws/Ops.lean ====
section
/-! SUPPORT. One lemma per shared operation, saying once everything it can do. -/

namespace Sys2Proof.Machine

/-! ### The ways a step ends -/

theorem raise_eq (f : Fault) : raise f = .fault f := rfl

/-- The program counter check: the fault above 0xFFF, the rest of the instruction below. -/
theorem checkPc_of_le {t : Nat} (h : t ≤ 0xFFF) (k : Result) : checkPc t k = k := by
  rw [checkPc, if_neg (by omega)]

theorem checkPc_of_gt {t : Nat} (h : 0xFFF < t) (k : Result) : checkPc t k = .fault (.pcOutOfRange t) := by
  rw [checkPc, if_pos h]; rfl

theorem checkMem_of_le {a : Nat} (h : a ≤ 0xFFF) (k : Result) : checkMem a k = k := by
  rw [checkMem, if_neg (by omega)]

theorem checkMem_of_gt {a : Nat} (h : 0xFFF < a) (k : Result) : checkMem a k = .fault (.memoryOutOfRange a) := by
  rw [checkMem, if_pos h]; rfl

theorem checkPc_next_iff {t : Nat} {k : Result} {u : State} : checkPc t k = .next u ↔ t ≤ 0xFFF ∧ k = .next u := by
  by_cases h : t ≤ 0xFFF
  · simp [checkPc_of_le h, h]
  · simp [checkPc_of_gt (Nat.lt_of_not_le h), h]

theorem checkMem_next_iff {a : Nat} {k : Result} {u : State} : checkMem a k = .next u ↔ a ≤ 0xFFF ∧ k = .next u := by
  by_cases h : a ≤ 0xFFF
  · simp [checkMem_of_le h, h]
  · simp [checkMem_of_gt (Nat.lt_of_not_le h), h]

theorem checkRows_next_iff {n : Nat} {s : State} {k : Result} {u : State} :
    checkRows n s k = .next u ↔ (n = 0 ∨ s.effAddr (n - 1) ≤ 0xFFF) ∧ k = .next u := by
  unfold checkRows
  split
  · next h => simp [h]
  · next h => simp [checkMem_next_iff, h]

theorem complete_next_iff {t : Nat} {s u : State} :
    complete t s = .next u ↔ u = { s with pc := BitVec.ofNat 12 t, blocked := false, report := none } := by
  simp [complete, eq_comm]

@[simp] theorem State.nextPc_eq (s : State) : s.nextPc = s.pc.toNat + 2 := rfl

/-- A jump to a checked target: the one next state, when the target fits. -/
theorem goTo_next_iff {t : Nat} {s u : State} :
    goTo t s = .next u ↔
      t ≤ 0xFFF ∧ u = { s with pc := BitVec.ofNat 12 t, blocked := false, report := none } := by
  rw [goTo, checkPc_next_iff, complete_next_iff]

theorem goTo_fault_iff {t : Nat} {s : State} {f : Fault} :
    goTo t s = .fault f ↔ 0xFFF < t ∧ f = .pcOutOfRange t := by
  by_cases h : t ≤ 0xFFF
  · simp [goTo, checkPc_of_le h, complete]; omega
  · simp [goTo, checkPc_of_gt (Nat.lt_of_not_le h), eq_comm]; omega

theorem fallThrough_next_iff {s s' u : State} :
    fallThrough s s' = .next u ↔
      s.pc.toNat + 2 ≤ 0xFFF ∧ u = { s' with pc := BitVec.ofNat 12 (s.pc.toNat + 2), blocked := false, report := none } :=
  goTo_next_iff

theorem skipIf_next_iff {c : Bool} {s u : State} :
    skipIf c s = .next u ↔ (if c then s.pc.toNat + 4 else s.nextPc) ≤ 0xFFF ∧
      u = { s with pc := BitVec.ofNat 12 (if c then s.pc.toNat + 4 else s.nextPc), blocked := false, report := none } :=
  goTo_next_iff

theorem hold_next_iff {s u : State} : hold s = .next u ↔ u = { s with blocked := true, report := none } := by
  simp [hold, eq_comm]

theorem reject_next_iff {w : Word} {s u : State} :
    reject w s = .next u ↔ u = { s with blocked := false, report := some (undecodable w) } := by
  simp [reject, eq_comm]

/-- `goTo` in the terms claims are stated in. -/
theorem goTo_endsAt (t : Nat) (s : State) : EndsAt (goTo t s) t s := by
  refine ⟨fun h => ⟨_, goTo_next_iff.mpr ⟨h, rfl⟩, rfl⟩, fun h => ?_⟩
  rw [goTo, checkPc_of_gt h]

theorem fallThrough_endsAt (s s' : State) : EndsAt (fallThrough s s') (s.pc.toNat + 2) s' := goTo_endsAt _ _

/-! ### Fetch -/

/-- The fetch: a fault at 0xFFF alone, the big-endian word elsewhere (40 R91). -/
theorem fetch_eq (s : State) :
    fetch s = if s.pc = 0xFFF#12 then .error (.fetchOutOfRange 0xFFF)
      else .ok (wordOf (s.mem.read s.pc.toNat) (s.mem.read (s.pc.toNat + 1))) := by
  unfold fetch
  have hlt := s.pc.isLt
  by_cases h : s.pc = 0xFFF#12
  · rw [if_pos h, if_pos (by rw [h]; decide), h]; rfl
  · have hne : s.pc.toNat ≠ 0xFFF := fun e => h (BitVec.eq_of_toNat_eq e)
    rw [if_neg h, if_neg (by omega)]

/-- The fetch depends on `pc` and `MEM` alone. -/
theorem fetch_congr {s t : State} (hp : t.pc = s.pc) (hm : t.mem = s.mem) : fetch t = fetch s := by
  simp only [fetch, hp, hm]

/-! ### Keys -/

theorem State.lowestKey_none_iff (s : State) : s.lowestKey = none ↔ s.NoKey := by
  simp [State.lowestKey, State.NoKey]

theorem State.lowestKey_some_iff (s : State) (k : Nat) : s.lowestKey = some k ↔ s.LowestPressed k := by
  simp only [State.lowestKey, State.LowestPressed, List.find?_range_eq_some]
  constructor
  · rintro ⟨h1, h2, h3⟩
    exact ⟨by simpa using h2, h1, fun j hj => by simpa using h3 j hj⟩
  · rintro ⟨h1, h2, h3⟩
    exact ⟨h2, by simpa using h1, fun j hj => by simpa using h3 j hj⟩

theorem State.lowestKey_lt {s : State} {k : Nat} (h : s.lowestKey = some k) : k < 16 :=
  ((s.lowestKey_some_iff k).mp h).1

/-! ### Flag instructions -/

/-- The registers after a flag write and a result write: the result wins where both name VF. -/
theorem State.reg_flagThenReg (f : Bool) (x : Nibble) (g : State → Byte) (s : State) (r : Nibble) :
    (flagThenReg f x g s).reg r =
      if r = x then g (s.setFlag f) else if r = 0xF#4 then (if f then 1#8 else 0#8) else s.reg r := by
  rw [flagThenReg, State.reg_setReg, State.reg_setFlag]

/-- `Dxyn` writes one register, VF. -/
theorem State.reg_drawSprite (s : State) (x y n r : Nibble) :
    (s.drawSprite x y n).reg r =
      if r = 0xF#4 then (if (drawCells s.fb false (s.drawTargets x y n)).2 then 1#8 else 0#8) else s.reg r :=
  State.reg_setFlag (s.setFb _) _ r

/-! ### The stack pointer -/

theorem sp_push {sp : BitVec 5} (h : sp.toNat < 16) : (sp + 1#5).toNat = sp.toNat + 1 := by
  rw [BitVec.toNat_add]; simp; omega

theorem sp_pop {sp : BitVec 5} (h : sp.toNat ≠ 0) : (sp - 1#5).toNat = sp.toNat - 1 := by
  have := sp.isLt
  rw [BitVec.toNat_sub]; simp; omega

end Sys2Proof.Machine
end

