-- ==== Sys2Proof/Laws/Draw.lean ====
section
/-! SUPPORT. Sprite drawing: what one flip does, what a list of distinct cells does, which cells a sprite targets. -/

namespace Sys2Proof.Machine

theorem flipCell_getLsbD (fb : BitVec 2048) (p q : Nat) (hp : p < 2048) :
    (flipCell fb p).getLsbD q = (fb.getLsbD q ^^ decide (q = p)) := by
  rw [flipCell, BitVec.getLsbD_xor, BitVec.getLsbD_twoPow]
  by_cases h : q = p
  · subst h; simp [hp]
  · simp [h, Ne.symm h]

/-- A cell that is not in the list keeps its value. -/
theorem drawCells_getLsbD_of_notMem (ps : List Nat) (hps : ∀ p ∈ ps, p < 2048) (q : Nat) (hq : q ∉ ps) (fb : BitVec 2048)
    (hit : Bool) : (drawCells fb hit ps).1.getLsbD q = fb.getLsbD q := by
  induction ps generalizing fb hit with
  | nil => rfl
  | cons p ps ih =>
    rw [List.mem_cons, not_or] at hq
    rw [drawCells, ih (fun r hr => hps r (by simp [hr])) hq.2, flipCell_getLsbD _ _ _ (hps p (by simp))]
    simp [hq.1]

/-- Drawing a list of distinct cells flips exactly those (44 R154). -/
theorem drawCells_getLsbD (ps : List Nat) (hps : ∀ p ∈ ps, p < 2048) (hnd : ps.Nodup) (q : Nat) (fb : BitVec 2048)
    (hit : Bool) : (drawCells fb hit ps).1.getLsbD q = (fb.getLsbD q ^^ decide (q ∈ ps)) := by
  induction ps generalizing fb hit with
  | nil => simp [drawCells]
  | cons p ps ih =>
    have hn := List.nodup_cons.mp hnd
    have hlt : ∀ r ∈ ps, r < 2048 := fun r hr => hps r (by simp [hr])
    rw [drawCells, ih hlt hn.2, flipCell_getLsbD _ _ _ (hps p (by simp))]
    by_cases h : q = p
    · subst h; simp [hn.1]
    · simp [h]

/-- The collision flag of a list of distinct cells: some cell was set before (44 R154). -/
theorem drawCells_hit (ps : List Nat) (hps : ∀ p ∈ ps, p < 2048) (hnd : ps.Nodup) (fb : BitVec 2048) (hit : Bool) :
    (drawCells fb hit ps).2 = (hit || ps.any (fun p => fb.getLsbD p)) := by
  induction ps generalizing fb hit with
  | nil => simp [drawCells]
  | cons p ps ih =>
    have hn := List.nodup_cons.mp hnd
    rw [drawCells, ih (fun r hr => hps r (by simp [hr])) hn.2, List.any_cons, Bool.or_assoc]
    congr 2
    rw [Bool.eq_iff_iff, List.any_eq_true, List.any_eq_true]
    refine exists_congr fun r => and_congr_right fun hr => ?_
    rw [flipCell_getLsbD _ _ _ (hps p (by simp))]
    have : r ≠ p := fun e => hn.1 (e ▸ hr)
    simp [this]

theorem cellIndex_lt (vx vy : Byte) (row col : Nat) : cellIndex vx vy row col < 2048 :=
  Nat.mod_lt _ (by decide)

theorem mem_rowCells {vx vy : Byte} {row : Nat} {b : Byte} {p : Nat} :
    p ∈ rowCells vx vy row b ↔ ∃ col < 8, spriteBit b col = true ∧ p = cellIndex vx vy row col := by
  simp only [rowCells, List.mem_map, List.mem_filter, List.mem_range]
  constructor
  · rintro ⟨c, ⟨h1, h2⟩, rfl⟩; exact ⟨c, h1, h2, rfl⟩
  · rintro ⟨c, h1, h2, rfl⟩; exact ⟨c, ⟨h1, h2⟩, rfl⟩

/-- The cells of a sprite are those its set bits target. -/
theorem mem_spriteCells {m : Memory} {a : Nat} {vx vy : Byte} {n p : Nat} :
    p ∈ spriteCells m a vx vy n ↔
      ∃ row < n, ∃ col < 8, spriteBit (m.read (a + row)) col = true ∧ p = cellIndex vx vy row col := by
  simp only [spriteCells, List.mem_flatMap, List.mem_range, mem_rowCells]

theorem spriteCells_lt {m : Memory} {a : Nat} {vx vy : Byte} {n p : Nat} (h : p ∈ spriteCells m a vx vy n) : p < 2048 := by
  obtain ⟨row, -, col, -, -, rfl⟩ := mem_spriteCells.mp h
  exact cellIndex_lt _ _ _ _

/-- `State.drawTargets` in the terms claims are stated in. -/
theorem State.mem_drawTargets (s : State) (x y n : Nibble) (p : Nat) :
    p ∈ s.drawTargets x y n ↔ s.SpriteTargets (s.reg x) (s.reg y) n.toNat p := by
  simp [State.drawTargets, mem_spriteCells, State.SpriteTargets, State.spriteSet, spriteBit, cellIndex, State.effAddr]

end Sys2Proof.Machine
end

