-- ==== Sys2Proof/Laws/Exec.lean ====
section
/-! SUPPORT. What an instruction can do, said once: when `exec` answers a next state, that state is the instruction's own effect
with `pc` at the target of 40 R93 and the status of R95. What a step can do, said once. -/

namespace Sys2Proof.Machine

/-- The writes of an instruction that completes, `pc`, `BLOCKED` and `report` apart. -/
def effectOf (i : Instr) (s : State) : State :=
  match i with
  | .cls => (s.setFb 0#2048).setDirty true
  | .ret => s.pop
  | .call _ => s.push s.pc
  | .ldi x kk => s.setReg x kk
  | .addi x kk => s.setReg x (s.reg x + kk)
  | .mov x y => s.setReg x (s.reg y)
  | .or x y => s.setReg x (s.reg x ||| s.reg y)
  | .and x y => s.setReg x (s.reg x &&& s.reg y)
  | .xor x y => s.setReg x (s.reg x ^^^ s.reg y)
  | .add x y => flagThenReg (carryAdd (s.reg x) (s.reg y)) x (fun t => t.reg x + t.reg y) s
  | .sub x y => flagThenReg (greater (s.reg x) (s.reg y)) x (fun t => t.reg x - t.reg y) s
  | .shr x _ => flagThenReg (lowBit (s.reg x)) x (fun t => t.reg x >>> 1) s
  | .subn x y => flagThenReg (greater (s.reg y) (s.reg x)) x (fun t => t.reg y - t.reg x) s
  | .shl x _ => flagThenReg (highBit (s.reg x)) x (fun t => t.reg x <<< 1) s
  | .lda nnn => s.setI nnn
  | .rnd x kk => s.drawn.setReg x (s.rand8 &&& kk)
  | .drw x y n => s.drawSprite x y n
  | .lddt x => s.setReg x s.dt
  | .wkey x => match s.lowestKey with | none => s | some k => s.setReg x (BitVec.ofNat 8 k)
  | .stdt x => s.setDt (s.reg x)
  | .stst x => s.setSt (s.reg x)
  | .adda x => (s.setFlag (carryAddr s.ireg (s.reg x))).setI ((s.setFlag (carryAddr s.ireg (s.reg x))).addrSum x)
  | .font x => s.setI (BitVec.ofNat 12 ((s.reg x).toNat * 5))
  | .bcd x => s.store (s.effAddr 0) (decimalDigits (s.reg x))
  | .stm x => s.store (s.effAddr 0) (s.firstRegs x)
  | .ldm x => s.loadRegs (s.effAddr 0) (x.toNat + 1)
  | .jp _ | .jpv0 _ | .sei .. | .snei .. | .ser .. | .sner .. | .skp _ | .sknp _ => s

/-- The instruction is a key wait that finds no key. -/
def waits (i : Instr) (s : State) : Bool :=
  match i with
  | .wkey _ => s.lowestKey == none
  | _ => false

theorem ofNat_toNat12 (a : Addr) : BitVec.ofNat 12 a.toNat = a := by simp

/-- A skip's two targets, the condition on either side. -/
theorem ite_swap_bne {α β : Type} [DecidableEq α] (a b : α) (p q : β) :
    (if (a != b) = true then p else q) = if a = b then q else p := by
  by_cases h : a = b <;> simp [h]

/-- Everything `exec` can answer with a next state. -/
theorem exec_next {i : Instr} {s t : State} (h : exec i s = .next t) :
    targetOf i s ≤ 0xFFF ∧
      t = { effectOf i s with pc := BitVec.ofNat 12 (targetOf i s), blocked := waits i s, report := none } := by
  cases i with
  | wkey x =>
    simp only [exec, execWkey] at h
    simp only [targetOf, effectOf, waits]
    have hp := s.pc.isLt
    split at h
    · next hk =>
      rw [hold_next_iff] at h
      simp only [hk, if_true]
      exact ⟨by omega, by rw [h]; simp⟩
    · next k hk =>
      rw [fallThrough_next_iff] at h
      simp only [hk]
      exact ⟨by simpa using h.1, by rw [h.2]; simp⟩
  | jp nnn =>
    have := nnn.isLt
    simp only [exec, execJp, complete_next_iff] at h
    exact ⟨by simp only [targetOf]; omega, by rw [h]; rfl⟩
  | call nnn =>
    have := nnn.isLt
    simp only [exec, execCall] at h
    split at h
    · cases h
    · rw [complete_next_iff] at h
      exact ⟨by simp only [targetOf]; omega, by rw [h]; rfl⟩
  | ret =>
    simp only [exec, execRet] at h
    split at h
    · cases h
    · exact goTo_next_iff.mp h
  | jpv0 nnn => exact goTo_next_iff.mp h
  | sei x kk =>
    have := skipIf_next_iff.mp h
    simpa only [targetOf, effectOf, waits, beq_iff_eq, State.nextPc] using this
  | ser x y =>
    have := skipIf_next_iff.mp h
    simpa only [targetOf, effectOf, waits, beq_iff_eq, State.nextPc] using this
  | snei x kk =>
    have := skipIf_next_iff.mp h
    simpa only [targetOf, effectOf, waits, State.nextPc, ite_swap_bne] using this
  | sner x y =>
    have := skipIf_next_iff.mp h
    simpa only [targetOf, effectOf, waits, State.nextPc, ite_swap_bne] using this
  | skp x =>
    simp only [exec, execSkp, keySkip] at h
    split at h
    · cases h
    · have := skipIf_next_iff.mp h
      simpa only [targetOf, effectOf, waits, State.nextPc, beq_true] using this
  | sknp x =>
    simp only [exec, execSknp, keySkip] at h
    split at h
    · cases h
    · have := skipIf_next_iff.mp h
      simp only [targetOf, effectOf, waits]
      cases hk : s.key (s.reg x).toNat <;> simpa [hk, State.nextPc] using this
  | bcd x =>
    simp only [exec, execBcd, checkPc_next_iff, checkMem_next_iff, complete_next_iff] at h
    exact ⟨h.1, h.2.2⟩
  | stm x =>
    simp only [exec, execStm, checkPc_next_iff, checkMem_next_iff, complete_next_iff] at h
    exact ⟨h.1, h.2.2⟩
  | ldm x =>
    simp only [exec, execLdm, checkPc_next_iff, checkMem_next_iff, complete_next_iff] at h
    exact ⟨h.1, h.2.2⟩
  | drw x y n =>
    simp only [exec, execDrw, checkPc_next_iff, checkRows_next_iff, complete_next_iff] at h
    exact ⟨h.1, h.2.2⟩
  | _ => exact fallThrough_next_iff.mp h

/-- Everything a step can answer with a next state: an undecodable report, or the decoded instruction's next state. -/
theorem step_next_cases {s t : State} (h : step s = .next t) :
    (∃ w, fetch s = .ok w ∧ decodeWord w = none ∧
        t = { s with blocked := false, report := some (undecodable w) }) ∨
      (∃ w i, fetch s = .ok w ∧ decodeWord w = some i ∧ exec i s = .next t) := by
  unfold step at h
  split at h
  · cases h
  · next w hw =>
    split at h
    · next hd => exact .inl ⟨w, hw, hd, reject_next_iff.mp h⟩
    · next i hd => exact .inr ⟨w, i, hw, hd, h⟩

/-- A step whose word decodes is the execution of what it decodes to. -/
theorem step_of_decode {s : State} {w : Word} {i : Instr} (hw : fetch s = .ok w) (hd : decodeWord w = some i) :
    step s = exec i s := by
  simp only [step, hw, hd]

/-- A step whose word does not decode. -/
theorem step_of_undecodable {s : State} {w : Word} (hw : fetch s = .ok w) (hd : decodeWord w = none) :
    step s = .next { s with blocked := false, report := some (undecodable w) } := by
  simp only [step, hw, hd]; rfl

end Sys2Proof.Machine
end

