-- ==== Sys2Proof/Laws/PerInstr.lean ====
section
/-! SUPPORT. The per-instruction family `EncodesItsRow`: the word of every instruction matches the mask and the match of its own row
of 30 R76. -/

namespace Sys2Proof.Laws

/-- The bits of the formats of 30 R72. -/
theorem formatA_getLsbD (op : Nibble) (nnn : Addr) (j : Nat) :
    (formatA op nnn).getLsbD j = if j < 12 then nnn.getLsbD j else op.getLsbD (j - 12) := BitVec.getLsbD_append

theorem formatXK_getLsbD (op x : Nibble) (kk : Byte) (j : Nat) :
    (formatXK op x kk).getLsbD j = if j < 8 then kk.getLsbD j else
      if j - 8 < 4 then x.getLsbD (j - 8) else op.getLsbD (j - 8 - 4) := by
  have h : (formatXK op x kk).getLsbD j = if j < 8 then kk.getLsbD j else (op ++ x).getLsbD (j - 8) :=
    BitVec.getLsbD_append
  rw [h, BitVec.getLsbD_append]

/-- The bits the masks of 30 R76 keep. -/
theorem and_F000 (w : Word) : w &&& 0xF000#16 = formatA (opOf w) 0#12 := by
  apply BitVec.eq_of_getLsbD_eq
  intro j hj
  rw [BitVec.getLsbD_and, formatA_getLsbD]
  interval_cases j <;> simp [opOf]

theorem and_F0FF (w : Word) : w &&& 0xF0FF#16 = formatXK (opOf w) 0#4 (kkOf w) := by
  apply BitVec.eq_of_getLsbD_eq
  intro j hj
  rw [BitVec.getLsbD_and, formatXK_getLsbD]
  interval_cases j <;> simp [opOf, kkOf]

theorem and_F00F (w : Word) : w &&& 0xF00F#16 = formatXK (opOf w) 0#4 ((nOf w).setWidth 8) := by
  apply BitVec.eq_of_getLsbD_eq
  intro j hj
  rw [BitVec.getLsbD_and, formatXK_getLsbD]
  interval_cases j <;> simp [opOf, nOf]

/-- The row of the opcode map that carries the instruction's mnemonic covers the instruction's word. -/
def EncodesItsRow.Statement (i : Instr) : Prop :=
  ∃ r ∈ opcodeRows, r.mnemonic = i.mnemonic ∧ r.covers (encode i) = true

theorem EncodesItsRow.of_row {i : Instr} {r : OpcodeRow} (k : Nat) (hr : opcodeRows[k]? = some r)
    (hm : r.mnemonic = i.mnemonic) (hc : encode i &&& r.mask = r.value) : EncodesItsRow.Statement i :=
  ⟨r, List.mem_of_getElem? hr, hm, by simp [OpcodeRow.covers, hc]⟩

theorem EncodesItsRow.cls : EncodesItsRow.Statement .cls := EncodesItsRow.of_row 0 rfl rfl (by decide)
theorem EncodesItsRow.ret : EncodesItsRow.Statement .ret := EncodesItsRow.of_row 1 rfl rfl (by decide)
theorem EncodesItsRow.jp (nnn : Addr) : EncodesItsRow.Statement (.jp nnn) := EncodesItsRow.of_row 2 rfl rfl (by rw [and_F000]; simp [encode]; decide)
theorem EncodesItsRow.call (nnn : Addr) : EncodesItsRow.Statement (.call nnn) := EncodesItsRow.of_row 3 rfl rfl (by rw [and_F000]; simp [encode]; decide)
theorem EncodesItsRow.sei (x : Nibble) (kk : Byte) : EncodesItsRow.Statement (.sei x kk) := EncodesItsRow.of_row 4 rfl rfl (by rw [and_F000]; simp [encode]; decide)
theorem EncodesItsRow.snei (x : Nibble) (kk : Byte) : EncodesItsRow.Statement (.snei x kk) := EncodesItsRow.of_row 5 rfl rfl (by rw [and_F000]; simp [encode]; decide)
theorem EncodesItsRow.ser (x : Nibble) (y : Nibble) : EncodesItsRow.Statement (.ser x y) := EncodesItsRow.of_row 6 rfl rfl (by rw [and_F00F]; simp [encode]; decide)
theorem EncodesItsRow.sner (x : Nibble) (y : Nibble) : EncodesItsRow.Statement (.sner x y) := EncodesItsRow.of_row 7 rfl rfl (by rw [and_F00F]; simp [encode]; decide)
theorem EncodesItsRow.ldi (x : Nibble) (kk : Byte) : EncodesItsRow.Statement (.ldi x kk) := EncodesItsRow.of_row 8 rfl rfl (by rw [and_F000]; simp [encode]; decide)
theorem EncodesItsRow.addi (x : Nibble) (kk : Byte) : EncodesItsRow.Statement (.addi x kk) := EncodesItsRow.of_row 9 rfl rfl (by rw [and_F000]; simp [encode]; decide)
theorem EncodesItsRow.mov (x : Nibble) (y : Nibble) : EncodesItsRow.Statement (.mov x y) := EncodesItsRow.of_row 10 rfl rfl (by rw [and_F00F]; simp [encode]; decide)
theorem EncodesItsRow.or (x : Nibble) (y : Nibble) : EncodesItsRow.Statement (.or x y) := EncodesItsRow.of_row 11 rfl rfl (by rw [and_F00F]; simp [encode]; decide)
theorem EncodesItsRow.and (x : Nibble) (y : Nibble) : EncodesItsRow.Statement (.and x y) := EncodesItsRow.of_row 12 rfl rfl (by rw [and_F00F]; simp [encode]; decide)
theorem EncodesItsRow.xor (x : Nibble) (y : Nibble) : EncodesItsRow.Statement (.xor x y) := EncodesItsRow.of_row 13 rfl rfl (by rw [and_F00F]; simp [encode]; decide)
theorem EncodesItsRow.add (x : Nibble) (y : Nibble) : EncodesItsRow.Statement (.add x y) := EncodesItsRow.of_row 14 rfl rfl (by rw [and_F00F]; simp [encode]; decide)
theorem EncodesItsRow.sub (x : Nibble) (y : Nibble) : EncodesItsRow.Statement (.sub x y) := EncodesItsRow.of_row 15 rfl rfl (by rw [and_F00F]; simp [encode]; decide)
theorem EncodesItsRow.shr (x : Nibble) (y : Nibble) : EncodesItsRow.Statement (.shr x y) := EncodesItsRow.of_row 16 rfl rfl (by rw [and_F00F]; simp [encode]; decide)
theorem EncodesItsRow.subn (x : Nibble) (y : Nibble) : EncodesItsRow.Statement (.subn x y) := EncodesItsRow.of_row 17 rfl rfl (by rw [and_F00F]; simp [encode]; decide)
theorem EncodesItsRow.shl (x : Nibble) (y : Nibble) : EncodesItsRow.Statement (.shl x y) := EncodesItsRow.of_row 18 rfl rfl (by rw [and_F00F]; simp [encode]; decide)
theorem EncodesItsRow.lda (nnn : Addr) : EncodesItsRow.Statement (.lda nnn) := EncodesItsRow.of_row 19 rfl rfl (by rw [and_F000]; simp [encode]; decide)
theorem EncodesItsRow.jpv0 (nnn : Addr) : EncodesItsRow.Statement (.jpv0 nnn) := EncodesItsRow.of_row 20 rfl rfl (by rw [and_F000]; simp [encode]; decide)
theorem EncodesItsRow.rnd (x : Nibble) (kk : Byte) : EncodesItsRow.Statement (.rnd x kk) := EncodesItsRow.of_row 21 rfl rfl (by rw [and_F000]; simp [encode]; decide)
theorem EncodesItsRow.drw (x : Nibble) (y : Nibble) (n : Nibble) : EncodesItsRow.Statement (.drw x y n) := EncodesItsRow.of_row 22 rfl rfl (by rw [and_F000]; simp [encode]; decide)
theorem EncodesItsRow.skp (x : Nibble) : EncodesItsRow.Statement (.skp x) := EncodesItsRow.of_row 23 rfl rfl (by rw [and_F0FF]; simp [encode]; decide)
theorem EncodesItsRow.sknp (x : Nibble) : EncodesItsRow.Statement (.sknp x) := EncodesItsRow.of_row 24 rfl rfl (by rw [and_F0FF]; simp [encode]; decide)
theorem EncodesItsRow.lddt (x : Nibble) : EncodesItsRow.Statement (.lddt x) := EncodesItsRow.of_row 25 rfl rfl (by rw [and_F0FF]; simp [encode]; decide)
theorem EncodesItsRow.wkey (x : Nibble) : EncodesItsRow.Statement (.wkey x) := EncodesItsRow.of_row 26 rfl rfl (by rw [and_F0FF]; simp [encode]; decide)
theorem EncodesItsRow.stdt (x : Nibble) : EncodesItsRow.Statement (.stdt x) := EncodesItsRow.of_row 27 rfl rfl (by rw [and_F0FF]; simp [encode]; decide)
theorem EncodesItsRow.stst (x : Nibble) : EncodesItsRow.Statement (.stst x) := EncodesItsRow.of_row 28 rfl rfl (by rw [and_F0FF]; simp [encode]; decide)
theorem EncodesItsRow.adda (x : Nibble) : EncodesItsRow.Statement (.adda x) := EncodesItsRow.of_row 29 rfl rfl (by rw [and_F0FF]; simp [encode]; decide)
theorem EncodesItsRow.font (x : Nibble) : EncodesItsRow.Statement (.font x) := EncodesItsRow.of_row 30 rfl rfl (by rw [and_F0FF]; simp [encode]; decide)
theorem EncodesItsRow.bcd (x : Nibble) : EncodesItsRow.Statement (.bcd x) := EncodesItsRow.of_row 31 rfl rfl (by rw [and_F0FF]; simp [encode]; decide)
theorem EncodesItsRow.stm (x : Nibble) : EncodesItsRow.Statement (.stm x) := EncodesItsRow.of_row 32 rfl rfl (by rw [and_F0FF]; simp [encode]; decide)
theorem EncodesItsRow.ldm (x : Nibble) : EncodesItsRow.Statement (.ldm x) := EncodesItsRow.of_row 33 rfl rfl (by rw [and_F0FF]; simp [encode]; decide)

end Sys2Proof.Laws
end

