-- ==== Sys2Proof/Tests/Slice0.lean ====
section
/-! SUPPORT. The model's own tests. Expected results come from the spec: the patterns of 30 R76 for decoding, the vectors T-… and
S… of 95_test_vectors.md for steps and events. The witnesses at the end meet the hypotheses of the statements, all together, at the
boundary values of their ranges. -/

namespace Sys2Proof.Tests

open Sys2Proof Sys2Proof.Machine

set_option Elab.async false

/-! ### Helpers -/

/-- The reset state with some registers set. -/
def st (rs : List (Nibble × Byte)) : State := rs.foldl (fun s p => s.setReg p.1 p.2) State.reset

/-- The outcome of one step on the word `w` placed at `pc`. -/
def run (w : Nat) (s : State) : Result := step (s.withFetchWord 16 w)

/-- What a next state shows through `f`. -/
def look {α : Type} (f : State → α) : Result → Option α
  | .next t => some (f t)
  | _ => none

/-- The fault of an outcome. -/
def faultIn : Result → Option Fault
  | .fault f => some f
  | _ => none

/-- The state after an event. -/
def after (e : Event) (s : State) : Option State :=
  match deliver e s with
  | .ok (t, _) => some t
  | .error _ => none

/-- A framebuffer with the given cells set. -/
def cells (ps : List Nat) : BitVec 2048 := ps.foldl (fun f p => f ||| BitVec.twoPow 2048 p) 0#2048

/-! ### Well-formedness: a term for each check, which the check refuses -/

theorem test_wf_field_nibble : fieldInRange (16, 16) = false ∧ fieldInRange (15, 16) = true := by decide +kernel
theorem test_wf_field_byte : fieldInRange (256, 256) = false ∧ fieldInRange (4096, 4096) = false := by decide +kernel
theorem test_wf_key_press : (Event.keyPress 16).wf = false ∧ (Event.keyPress 15).wf = true := by decide +kernel
theorem test_wf_key_release : (Event.keyRelease 16).wf = false ∧ (Event.keyRelease 0).wf = true := by decide +kernel
theorem test_wf_load : (Event.load (List.replicate 3585 0#8)).wf = false ∧ (Event.load (List.replicate 3584 0#8)).wf = true := by
  decide +kernel

/-! ### Decoding: words written out from the patterns of 30 R76, operand digits all different -/

theorem test_decode_cls_ret : decodeWord 0b0000000011100000#16 = some .cls ∧ decodeWord 0b0000000011101110#16 = some .ret := by
  decide +kernel
theorem test_decode_jp_call : decodeWord 0b0001001000110100#16 = some (.jp 0x234#12) ∧
    decodeWord 0b0010111111100001#16 = some (.call 0xFE1#12) := by decide +kernel
theorem test_decode_sei_snei : decodeWord 0b0011000110100101#16 = some (.sei 0x1#4 0xA5#8) ∧
    decodeWord 0b0100101001111111#16 = some (.snei 0xA#4 0x7F#8) := by decide +kernel
theorem test_decode_ser_sner : decodeWord 0b0101000100100000#16 = some (.ser 0x1#4 0x2#4) ∧
    decodeWord 0b1001111000110000#16 = some (.sner 0xE#4 0x3#4) := by decide +kernel
theorem test_decode_ldi_addi : decodeWord 0b0110000000000101#16 = some (.ldi 0x0#4 0x05#8) ∧
    decodeWord 0b0111111100000011#16 = some (.addi 0xF#4 0x03#8) := by decide +kernel
theorem test_decode_mov_or : decodeWord 0b1000000100100000#16 = some (.mov 0x1#4 0x2#4) ∧
    decodeWord 0b1000110001010001#16 = some (.or 0xC#4 0x5#4) := by decide +kernel
theorem test_decode_and_xor : decodeWord 0b1000000100100010#16 = some (.and 0x1#4 0x2#4) ∧
    decodeWord 0b1000001111000011#16 = some (.xor 0x3#4 0xC#4) := by decide +kernel
theorem test_decode_add_sub : decodeWord 0b1000000000010100#16 = some (.add 0x0#4 0x1#4) ∧
    decodeWord 0b1000111100000101#16 = some (.sub 0xF#4 0x0#4) := by decide +kernel
theorem test_decode_shr_subn_shl : decodeWord 0b1000000100100110#16 = some (.shr 0x1#4 0x2#4) ∧
    decodeWord 0b1000000001110111#16 = some (.subn 0x0#4 0x7#4) ∧
    decodeWord 0b1000000100101110#16 = some (.shl 0x1#4 0x2#4) := by decide +kernel
theorem test_decode_lda_jpv0 : decodeWord 0b1010001100000001#16 = some (.lda 0x301#12) ∧
    decodeWord 0b1011001000010000#16 = some (.jpv0 0x210#12) := by decide +kernel
theorem test_decode_rnd_drw : decodeWord 0b1100000100001111#16 = some (.rnd 0x1#4 0x0F#8) ∧
    decodeWord 0b1101000100100011#16 = some (.drw 0x1#4 0x2#4 0x3#4) := by decide +kernel
theorem test_decode_skp_sknp : decodeWord 0b1110010110011110#16 = some (.skp 0x5#4) ∧
    decodeWord 0b1110101010100001#16 = some (.sknp 0xA#4) := by decide +kernel
theorem test_decode_lddt_wkey : decodeWord 0b1111000100000111#16 = some (.lddt 0x1#4) ∧
    decodeWord 0b1111111100001010#16 = some (.wkey 0xF#4) := by decide +kernel
theorem test_decode_stdt_stst : decodeWord 0b1111000000010101#16 = some (.stdt 0x0#4) ∧
    decodeWord 0b1111001000011000#16 = some (.stst 0x2#4) := by decide +kernel
theorem test_decode_adda_font : decodeWord 0b1111000000011110#16 = some (.adda 0x0#4) ∧
    decodeWord 0b1111001100101001#16 = some (.font 0x3#4) := by decide +kernel
theorem test_decode_bcd_stm_ldm : decodeWord 0b1111000000110011#16 = some (.bcd 0x0#4) ∧
    decodeWord 0b1111001001010101#16 = some (.stm 0x2#4) ∧ decodeWord 0b1111001001100101#16 = some (.ldm 0x2#4) := by decide +kernel
/-- T-UND-1 to T-UND-13. -/
theorem test_undecodable : [0x0000#16, 0x01E0#16, 0x00E1#16, 0x0FEE#16, 0x5121#16, 0x9121#16, 0x8128#16, 0x812F#16,
    0xE09F#16, 0xE000#16, 0xF000#16, 0xF0FF#16, 0xF01F#16].all (fun w => decodeWord w == none) = true := by decide +kernel
/-- The bytes lie high byte first (R51), and a lone byte is no instruction. -/
theorem test_decode_bytes : decode [0x12#8, 0x34#8, 0x56#8] = .ok (.jp 0x234#12, [0x56#8]) ∧
    decode [0x12#8] = .error .truncated ∧ decodeTableWord 16 0x1234 = some (.jp 0x234#12) := by
  decide +kernel

/-! ### Control transfer and skips (95, 2.1 and 2.2) -/

/-- T-JP-1. -/
theorem test_jp : look (·.pc) (run 0x1204 { st [] with pc := 0x20A#12 }) = some 0x204#12 := by decide +kernel
/-- T-CALL-2. -/
theorem test_call : look (fun t => (t.stackAt 15, t.sp, t.pc)) (run 0x2300 { st [] with sp := 15#5 }) =
    some (0x200#12, 16#5, 0x300#12) := by decide +kernel
/-- T-CALL-3. -/
theorem test_call_overflow : faultIn (run 0x2300 { st [] with sp := 16#5 }) = some .stackOverflow := by decide +kernel
/-- T-RET-5. -/
theorem test_ret : look (fun t => (t.stackAt 1, t.sp, t.pc))
    (run 0x00EE { st [] with pc := 0x400#12, sp := 2#5, stack := ((st []).stack.set 0 0x204#12).set 1 0x300#12 }) =
    some (0x300#12, 1#5, 0x302#12) := by decide +kernel
/-- T-RET-2. -/
theorem test_ret_underflow : faultIn (run 0x00EE (st [])) = some .stackUnderflow := by decide +kernel
/-- T-JPV0-4. -/
theorem test_jpv0 : look (·.pc) (run 0xB210 (st [(0, 2), (2, 0x40)])) = some 0x212#12 := by decide +kernel
/-- T-JPV0-2. -/
theorem test_jpv0_range : faultIn (run 0xBFFF (st [(0, 1)])) = some (.pcOutOfRange 0x1000) := by decide +kernel
/-- T-SEI-1. -/
theorem test_sei : look (·.pc) (run 0x3100 { st [] with pc := 0x208#12 }) = some 0x20C#12 := by decide +kernel
/-- T-SKIP-1. -/
theorem test_sei_range : faultIn (run 0x3000 { st [] with pc := 0xFFC#12 }) = some (.pcOutOfRange 0x1000) := by decide +kernel
/-- T-SNEI-1 and T-SNEI-2. -/
theorem test_snei : look (·.pc) (run 0x4A7F { st [(10, 0x7F)] with pc := 0x300#12 }) = some 0x302#12 ∧
    look (·.pc) (run 0x4A7F { st [(10, 0x80)] with pc := 0x300#12 }) = some 0x304#12 := by decide +kernel
/-- T-SER-1 and T-SER-2. -/
theorem test_ser : look (·.pc) (run 0x5120 (st [(1, 9), (2, 9)])) = some 0x204#12 ∧
    look (·.pc) (run 0x5120 (st [(1, 9), (2, 8)])) = some 0x202#12 := by decide +kernel
/-- T-SNER-1 and T-SNER-2. -/
theorem test_sner : look (·.pc) (run 0x9120 (st [(1, 9), (2, 8)])) = some 0x204#12 ∧
    look (·.pc) (run 0x9120 (st [(1, 9), (2, 9)])) = some 0x202#12 := by decide +kernel

/-! ### Loads, ALU, random (95, 2.3 to 2.5) -/

/-- T-LDI-1. -/
theorem test_ldi : look (fun t => (t.reg 0, t.pc)) (run 0x6005 (st [])) = some (5#8, 0x202#12) := by decide +kernel
/-- T-LDI-3. -/
theorem test_ldi_range : faultIn (run 0x6005 { st [] with pc := 0xFFE#12 }) = some (.pcOutOfRange 0x1000) := by decide +kernel
/-- T-ADDI-2. -/
theorem test_addi : look (fun t => (t.reg 0, t.reg 15)) (run 0x7001 (st [(0, 0xFF), (15, 7)])) = some (0#8, 7#8) := by decide +kernel
/-- T-MOV-1. -/
theorem test_mov : look (fun t => (t.reg 1, t.reg 2)) (run 0x8120 (st [(2, 0x3C)])) = some (0x3C#8, 0x3C#8) := by decide +kernel
/-- T-OR-1. -/
theorem test_or : look (fun t => (t.reg 1, t.reg 15)) (run 0x8121 (st [(1, 0x0F), (2, 0xF0), (15, 1)])) =
    some (0xFF#8, 1#8) := by decide +kernel
/-- T-AND-1. -/
theorem test_and : look (fun t => (t.reg 1, t.reg 15)) (run 0x8122 (st [(1, 0x3C), (2, 0x0F), (15, 1)])) =
    some (0x0C#8, 1#8) := by decide +kernel
/-- T-XOR-1. -/
theorem test_xor : look (fun t => (t.reg 1, t.reg 15)) (run 0x8123 (st [(1, 0xFF), (2, 0x0F), (15, 1)])) =
    some (0xF0#8, 1#8) := by decide +kernel
/-- T-ADD-2. -/
theorem test_add : look (fun t => (t.reg 0, t.reg 15)) (run 0x8014 (st [(0, 0x80), (1, 0x7F), (15, 1)])) =
    some (0xFF#8, 0#8) := by decide +kernel
/-- T-ADD-5 and T-ADD-6 (D2). -/
theorem test_add_vf : look (fun t => (t.reg 0, t.reg 15)) (run 0x80F4 (st [(0, 0x10), (15, 0xF5)])) = some (0x11#8, 1#8) ∧
    look (·.reg 15) (run 0x8F04 (st [(15, 0xF0), (0, 0x20)])) = some 0x21#8 := by decide +kernel
/-- T-SUB-1 and T-SUB-3. -/
theorem test_sub : look (fun t => (t.reg 0, t.reg 15)) (run 0x8015 (st [(0, 5), (1, 3)])) = some (2#8, 1#8) ∧
    look (fun t => (t.reg 0, t.reg 15)) (run 0x8015 (st [(0, 7), (1, 7), (15, 1)])) = some (0#8, 0#8) := by decide +kernel
/-- T-SUB-6 (D2). -/
theorem test_sub_vf : look (·.reg 15) (run 0x8F05 (st [(15, 9), (0, 4)])) = some 0xFD#8 := by decide +kernel
/-- T-SUBN-2. -/
theorem test_subn : look (fun t => (t.reg 0, t.reg 15)) (run 0x8017 (st [(0, 5), (1, 3), (15, 1)])) =
    some (0xFE#8, 0#8) := by decide +kernel
/-- T-SUBN-4 (D2). -/
theorem test_subn_vf : look (fun t => (t.reg 0, t.reg 15)) (run 0x80F7 (st [(0, 2), (15, 9)])) = some (0xFF#8, 1#8) := by decide +kernel
/-- T-SHR-4. -/
theorem test_shr : look (fun t => (t.reg 1, t.reg 2, t.reg 15)) (run 0x8126 (st [(1, 4), (2, 0xFF), (15, 1)])) =
    some (2#8, 0xFF#8, 0#8) := by decide +kernel
/-- T-SHR-2 and T-SHR-5 (D2). -/
theorem test_shr_flag : look (fun t => (t.reg 1, t.reg 15)) (run 0x8106 (st [(1, 0xFF)])) = some (0x7F#8, 1#8) ∧
    look (·.reg 15) (run 0x8F06 (st [(15, 0xFF)])) = some 0#8 := by decide +kernel
/-- T-SHL-1. -/
theorem test_shl : look (fun t => (t.reg 1, t.reg 15)) (run 0x810E (st [(1, 0x81)])) = some (0x02#8, 1#8) := by decide +kernel
/-- T-SHL-4 (D2) and T-SHL-6. -/
theorem test_shl_vf : look (·.reg 15) (run 0x8F0E (st [(15, 0x80)])) = some 2#8 ∧
    look (fun t => (t.reg 1, t.reg 15)) (run 0x812E (st [(1, 1), (2, 0xFF)])) = some (2#8, 0#8) := by decide +kernel
/-- T-RND-2: a zero mask gives 0 whatever is drawn. -/
theorem test_rnd_zero : look (·.reg 1) (exec (.rnd 0x1#4 0x00#8) (st [(1, 9)])) = some 0#8 := by
  simp [exec, execRnd, fallThrough, goTo, checkPc, complete, look, st, State.reset, State.reg]
/-- T-RND-3: a full mask gives the draw itself. -/
theorem test_rnd_full : look (·.reg 1) (exec (.rnd 0x1#4 0xFF#8) (st [])) = some (Config.rand8 0) := by
  have h : ∀ b : Byte, b &&& 0xFF#8 = b := by decide +kernel
  simp [exec, execRnd, fallThrough, goTo, checkPc, complete, look, st, State.reset, State.reg, State.rand8, h]

/-! ### Address register and memory (95, 2.6 and 2.7) -/

/-- T-LDA-1. -/
theorem test_lda : look (·.ireg) (run 0xA300 (st [])) = some 0x300#12 := by decide +kernel
/-- T-ADDA-2. -/
theorem test_adda : look (fun t => (t.ireg, t.reg 15)) (run 0xF01E { st [(0, 1)] with ireg := 0xFFF#12 }) =
    some (0x000#12, 1#8) := by decide +kernel
/-- T-ADDA-3 and T-ADDA-4 (D2). -/
theorem test_adda_edge : look (fun t => (t.ireg, t.reg 15)) (run 0xF01E { st [(0, 0xFE), (15, 1)] with ireg := 0xF01#12 }) =
      some (0xFFF#12, 0#8) ∧
    look (fun t => (t.ireg, t.reg 15)) (run 0xFF1E { st [(15, 5)] with ireg := 0xFFF#12 }) = some (0x000#12, 1#8) := by decide +kernel
/-- T-FONT-1 and T-FONT-3. -/
theorem test_font : look (·.ireg) (run 0xF329 (st [(3, 0x0A)])) = some 0x032#12 ∧
    look (·.ireg) (run 0xF329 (st [(3, 0xFF)])) = some 0x4FB#12 := by decide +kernel
/-- The default table has the 80 bytes of R5, and under it glyph A, at 0x032 (R33), reads F0 90 F0 90 90 after reset. -/
theorem test_default_font : fontTable.length = 80 ∧
    (DefaultFont → (List.range 5).map (fun k => State.reset.mem.read (0x032 + k)) = [0xF0#8, 0x90#8, 0xF0#8, 0x90#8, 0x90#8]) := by
  refine ⟨rfl, fun h => ?_⟩
  simp [State.reset, List.range_succ, h.unlisted, fontTable]
/-- Without a choice of font, the font region reads as the parameter, its last byte at 0x04F (R38). -/
theorem test_font_parameter : State.reset.mem.read 0x04F = Config.font 0x04F ∧ State.reset.mem.read 0x050 = 0#8 := ⟨rfl, rfl⟩
/-- S2, T-BCD-1: 156 gives 1, 5, 6. -/
theorem test_bcd : look (fun t => (t.mem.read 0x300, t.mem.read 0x301, t.mem.read 0x302))
    (run 0xF033 { st [(0, 156)] with ireg := 0x300#12 }) = some (1#8, 5#8, 6#8) := by decide +kernel
/-- T-BCD-5. -/
theorem test_bcd_range : faultIn (run 0xF033 { st [(0, 7)] with ireg := 0xFFE#12 }) = some (.memoryOutOfRange 0x1000) := by decide +kernel
/-- T-STM-1: three registers stored, the fourth not. -/
theorem test_stm : look (fun t => ((List.range 4).map (fun k => t.mem.read (0x30C + k)), t.ireg))
    (run 0xF255 { st [(0, 12), (1, 5), (2, 6), (3, 0x77)] with ireg := 0x30C#12 }) =
    some ([0x0C#8, 5#8, 6#8, 0#8], 0x30C#12) := by decide +kernel
/-- T-STM-4. -/
theorem test_stm_range : faultIn (run 0xFF55 { st [] with ireg := 0xFF1#12 }) = some (.memoryOutOfRange 0x1000) := by decide +kernel
/-- T-LDM-1: three registers loaded, the fourth kept. -/
theorem test_ldm : look (fun t => [t.reg 0, t.reg 1, t.reg 2, t.reg 3])
    (run 0xF265 (({ st [(3, 0x99)] with ireg := 0x300#12 } : State).store 0x300 [1#8, 5#8, 6#8, 7#8])) =
    some [1#8, 5#8, 6#8, 0x99#8] := by decide +kernel
/-- T-LDM-3. -/
theorem test_ldm_range : faultIn (run 0xF165 { st [] with ireg := 0xFFF#12 }) = some (.memoryOutOfRange 0x1000) := by decide +kernel

/-! ### Display (95, 2.8) -/

/-- T-CLS-1. -/
theorem test_cls : look (fun t => (t.fb, t.dirty)) (run 0x00E0 { st [] with fb := cells [0, 5, 2047] }) =
    some (0#2048, true) := by decide +kernel
/-- T-DRW-4: the spill of the last row goes to row 0. -/
theorem test_drw_spill : look (fun t => (t.fb, t.reg 15, t.dirty))
    (run 0xD011 (({ st [(0, 60), (1, 31)] with ireg := 0x300#12 } : State).store 0x300 [0xFF#8])) =
    some (cells [2044, 2045, 2046, 2047, 0, 1, 2, 3], 0#8, true) := by decide +kernel
/-- T-DRW-2: one cell turned off, one on. -/
theorem test_drw_collision : look (fun t => (t.fb, t.reg 15))
    (run 0xD011 (({ st [] with ireg := 0x20E#12, fb := cells [1] } : State).store 0x20E [0xC0#8])) =
    some (cells [0], 1#8) := by decide +kernel

/-! ### Keys and timers (95, 2.9) -/

/-- T-SKP-1 and T-SKP-3. -/
theorem test_skp : look (·.pc) (run 0xE59E (({ st [(5, 0x0A)] with pc := 0x220#12 } : State).setKey 10 true)) = some 0x224#12 ∧
    faultIn (run 0xE59E ((st [(5, 0x10)]).setKey 0 true)) = some (.keyIndexOutOfRange 0x10) := by decide +kernel
/-- T-SKNP-1 and T-SKNP-2. -/
theorem test_sknp : look (·.pc) (run 0xE5A1 (({ st [(5, 0x0A)] with pc := 0x220#12 } : State).setKey 10 true)) = some 0x222#12 ∧
    look (·.pc) (run 0xE5A1 { st [(5, 0x0A)] with pc := 0x220#12 }) = some 0x224#12 := by decide +kernel
/-- T-WKEY-1. -/
theorem test_wkey : look (fun t => (t.reg 0, t.pc, t.blocked)) (run 0xF00A (((st []).setKey 3 true).setKey 7 true)) =
    some (3#8, 0x202#12, false) := by decide +kernel
/-- T-WKEY-4: no key, and no `pc + 2` formed at the top of memory. -/
theorem test_wkey_wait : look (fun t => (t.reg 0, t.pc, t.blocked)) (run 0xF00A { st [(0, 9)] with pc := 0xFFE#12 }) =
    some (9#8, 0xFFE#12, true) := by decide +kernel
/-- T-LDDT-1. -/
theorem test_lddt : look (·.reg 1) (run 0xF107 { st [] with dt := 0x2A#8 }) = some 0x2A#8 := by decide +kernel
/-- T-STDT-1. -/
theorem test_stdt : look (fun t => (t.dt, t.st)) (run 0xF015 (st [(0, 3)])) = some (3#8, 0#8) := by decide +kernel
/-- T-STST-1. -/
theorem test_stst : look (fun t => (t.dt, t.soundOut)) (run 0xF218 (st [(2, 0x10)])) = some (0#8, 0x10#8) := by decide +kernel

/-! ### Reports, priorities, events (95, 2.10 to 2.12) -/

/-- T-BOOT-1: before a load the first step reports `Undecodable(0x0000, 0)`, state unchanged. -/
theorem test_boot : look (fun t => (t.report, t.pc)) (step State.reset) = some (some ⟨0x0000#16, 0x0#4⟩, 0x200#12) := by decide +kernel
/-- T-UND-14: an undecodable word clears BLOCKED. -/
theorem test_undecodable_unblocks : look (fun t => (t.blocked, t.pc)) (run 0x0000 { st [] with blocked := true }) =
    some (false, 0x200#12) := by decide +kernel
/-- T-PRI-1 and T-PRI-5. -/
theorem test_priority_pc : faultIn (run 0xF033 { st [] with pc := 0xFFE#12, ireg := 0xFFF#12 }) = some (.pcOutOfRange 0x1000) ∧
    faultIn (run 0xD012 { st [] with pc := 0xFFE#12, ireg := 0xFFF#12 }) = some (.pcOutOfRange 0x1000) := by decide +kernel
/-- T-PRI-2 and T-PRI-3. -/
theorem test_priority_operand :
    faultIn (run 0xE09E { st [(0, 0x10)] with pc := 0xFFE#12 }) = some (.keyIndexOutOfRange 0x10) ∧
    faultIn (run 0x00EE { st [] with pc := 0xFFE#12 }) = some .stackUnderflow := by decide +kernel
/-- T-PRI-4. -/
theorem test_priority_fetch : faultIn (step { st [] with pc := 0xFFF#12 }) = some (.fetchOutOfRange 0xFFF) := by decide +kernel
/-- T-TICK-1 and T-TICK-3. -/
theorem test_tick : (after .tick { st [] with dt := 2#8 }).map (fun t => (t.dt, t.st)) = some (1#8, 0#8) ∧
    (after .tick { st [] with dt := 255#8, st := 255#8 }).map (fun t => (t.dt, t.st)) = some (254#8, 254#8) := by decide +kernel
/-- T-KEY-2. -/
theorem test_key_release : (after (.keyRelease 4) ((st []).setKey 4 true)).map (·.key 4) = some false := by decide +kernel
/-- T-DIRTY-1. -/
theorem test_dirty_clear : (after .dirtyClear { st [] with dirty := true }).map (·.dirty) = some false := by decide +kernel
/-- T-LOAD-2: a shorter reload leaves the earlier tail. -/
theorem test_load : ((after (.load [0xAA#8, 0xBB#8, 0xCC#8]) State.reset).bind (after (.load [0x11#8]))).map
    (fun t => (t.mem.read 0x200, t.mem.read 0x201, t.mem.read 0x202)) = some (0x11#8, 0xBB#8, 0xCC#8) := by decide +kernel
/-- T-RESET-1: `pc`, memory and keys back at reset. -/
theorem test_reset : (after .reset ({ (st [(0, 5)]).setKey 3 true with pc := 0x345#12 }.store 0x200 [0x12#8])).map
    (fun t => (t.reg 0, t.key 3, t.pc, t.mem.read 0x200)) = some (0#8, false, 0x200#12, 0#8) := by decide +kernel

/-! ### Witnesses: values that meet the hypotheses of each statement, all together, at the ends of their ranges -/

/-- A state with a call outstanding, `I` at the font, key 0 down: no instruction below faults in it. -/
def busy : State := ({ st [(1, 9)] with sp := 1#5, stack := (st []).stack.set 0 0x204#12 } : State).setKey 0 true

/-- One instruction of every constructor, to `xor`. -/
def oneOfEachLow : List Instr :=
  [.cls, .ret, .jp 0xFFF#12, .call 0x300#12, .sei 0#4 0#8, .snei 0#4 1#8, .ser 0#4 2#4, .sner 0#4 1#4, .ldi 15#4 1#8,
   .addi 0#4 1#8, .mov 0#4 1#4, .or 0#4 1#4, .and 0#4 1#4, .xor 0#4 1#4]

/-- One instruction of every constructor, from `add`. -/
def oneOfEachHigh : List Instr :=
  [.add 0#4 15#4, .sub 15#4 0#4, .shr 1#4 15#4, .subn 0#4 1#4, .shl 15#4 15#4, .lda 0xFFF#12, .jpv0 0xFFF#12, .rnd 0#4 0xFF#8,
   .drw 0#4 1#4 15#4, .skp 0#4, .sknp 0#4, .lddt 0#4, .wkey 15#4, .stdt 0#4, .stst 0#4, .adda 15#4, .font 0#4, .bcd 0#4,
   .stm 15#4, .ldm 15#4]

theorem witness_EncodeInvertsDecode : decodeWord 0xDFF0#16 = some (.drw 0xF#4 0xF#4 0x0#4) := by decide +kernel

theorem witness_DecodingFollowsTheOpcodeMap : ∃ r ∈ opcodeRows, r.covers 0x8FFE#16 = true :=
  ⟨⟨"SHL", 0xF00F#16, 0x800E#16⟩, by decide +kernel, by decide +kernel⟩

theorem witness_OpcodeRowsAreMutuallyExclusive :
    ∃ r ∈ opcodeRows, ∃ q ∈ opcodeRows, r.covers 0x00EE#16 = true ∧ q.covers 0x00EE#16 = true :=
  ⟨⟨"RET", 0xFFFF#16, 0x00EE#16⟩, by decide +kernel, ⟨"RET", 0xFFFF#16, 0x00EE#16⟩, by decide +kernel, by decide +kernel,
    by decide +kernel⟩

/-- A word under each clause of the list, and one under none. -/
theorem witness_UndecodableWordsExactly :
    (opOf 0x0FFF#16 = 0x0#4 ∧ (0x0FFF#16 : Word) ≠ 0x00E0#16 ∧ (0x0FFF#16 : Word) ≠ 0x00EE#16) ∧
    (opOf 0x5FF1#16 = 0x5#4 ∧ nOf 0x5FF1#16 ≠ 0x0#4) ∧ (opOf 0x900F#16 = 0x9#4 ∧ nOf 0x900F#16 ≠ 0x0#4) ∧
    (opOf 0x800F#16 = 0x8#4 ∧ nOf 0x800F#16 ∈ [0x8#4, 0x9#4, 0xA#4, 0xB#4, 0xC#4, 0xD#4, 0xF#4]) ∧
    (opOf 0xE09F#16 = 0xE#4 ∧ kkOf 0xE09F#16 ∉ [0x9E#8, 0xA1#8]) ∧
    (opOf 0xF066#16 = 0xF#4 ∧ kkOf 0xF066#16 ∉ [0x07#8, 0x0A#8, 0x15#8, 0x18#8, 0x1E#8, 0x29#8, 0x33#8, 0x55#8, 0x65#8]) := by
  decide +kernel

theorem witness_FetchIsBigEndian : ({ st [] with pc := 0xFFE#12 } : State).pc.toNat ≤ 0xFFE ∧ (st []).pc.toNat ≤ 0xFFE := by
  decide +kernel

/-- At 0xFFF; elsewhere on an undecodable word; elsewhere, at the last fetchable address, on a decodable one. -/
theorem witness_StepRunsTheDecodedInstruction :
    ({ st [] with pc := 0xFFF#12 } : State).pc = 0xFFF#12 ∧
    ((st []).pc ≠ 0xFFF#12 ∧ decodeWord (wordOf ((st []).mem.read 0x200) ((st []).mem.read 0x201)) = none) ∧
    ∃ s : State, s.pc = 0xFFE#12 ∧ decodeWord (wordOf (s.mem.read 0xFFE) (s.mem.read 0xFFF)) = some (.jp 0x300#12) :=
  ⟨rfl, by decide +kernel, ({ st [] with pc := 0xFFE#12 } : State).store 0xFFE [0x13#8, 0x00#8], rfl, by decide +kernel⟩

/-- A key wait that finds no key, one that finds one, and an instruction that is none. -/
theorem witness_BlockedIsSetExactlyByTheKeyWait :
    look (·.blocked) (exec (.wkey 0) (st [])) = some true ∧ look (·.blocked) (exec (.wkey 0) ((st []).setKey 15 true)) = some false ∧
    look (·.blocked) (exec .cls { st [] with blocked := true }) = some false := by decide +kernel

theorem witness_UndecodableWordStalls : fetch State.reset = .ok 0x0000#16 ∧ decodeWord 0x0000#16 = none := ⟨rfl, rfl⟩

/-- Every kind of fault has a state with `SP` at most 16 in which it is the first condition met. -/
theorem witness_FaultsExactlyWhenTheSpecSays :
    (({ st [] with sp := 16#5 } : State).sp.toNat ≤ 16 ∧ faultOf (.call 0) { st [] with sp := 16#5 } = some .stackOverflow) ∧
    faultOf .ret { st [] with pc := 0xFFF#12 } = some .stackUnderflow ∧
    faultOf (.skp 0) (st [(0, 16)]) = some (.keyIndexOutOfRange 16) ∧
    faultOf (.ldi 0 0) { st [] with pc := 0xFFE#12 } = some (.pcOutOfRange 0x1000) ∧
    faultOf (.stm 1) { st [] with ireg := 0xFFF#12 } = some (.memoryOutOfRange 0x1000) ∧
    faultOf (.drw 0 0 0) { st [] with ireg := 0xFFF#12 } = none := by decide +kernel

/-- In one state every instruction meets the conditions to complete; at `SP` = 16 a return still does. -/
theorem witness_EveryInstructionCompletes :
    busy.sp.toNat ≤ 16 ∧ (∀ i ∈ oneOfEachLow, faultOf i busy = none) ∧ (∀ i ∈ oneOfEachHigh, faultOf i busy = none) ∧
    oneOfEachLow.length + oneOfEachHigh.length = 34 ∧
    faultOf .ret { st [] with sp := 16#5 } = none := by decide +kernel

theorem witness_FaultLeavesTheStateAndRepeats :
    step { st [] with pc := 0xFFF#12 } = .fault (.fetchOutOfRange 0xFFF) := rfl

theorem witness_StepKeepsTheInvariant : State.reset.Inv ∧ ∃ t, step State.reset = .next t :=
  ⟨by decide +kernel, _, rfl⟩

theorem witness_EveryRunOfEventsKeepsTheInvariant :
    State.reset.Inv ∧ ∃ t, runEvents [.load [0x22#8, 0x00#8], .step, .tick, .keyPress 15, .dirtyClear, .reset] State.reset = .ok t :=
  ⟨by decide +kernel, _, rfl⟩

/-- The longest image and the shortest. -/
theorem witness_LoadedImageRunsFromItsFirstWord :
    (List.replicate 3582 0#8).length ≤ 3582 ∧ ([] : List Byte).length ≤ 3582 ∧
    decodeWord (wordOf 0x12#8 0x00#8) = some (.jp 0x200#12) := by decide +kernel

/-- The condition `t ≤ 0xFFF` of `EndsAt` and its opposite, for `pc + 2` at 0xFFD and 0xFFE, for `pc + 4` at 0xFFB and 0xFFC. -/
theorem witness_EndsAt : ({ st [] with pc := 0xFFD#12 } : State).pc.toNat + 2 ≤ 0xFFF ∧
    0xFFF < ({ st [] with pc := 0xFFE#12 } : State).pc.toNat + 2 ∧ ({ st [] with pc := 0xFFB#12 } : State).pc.toNat + 4 ≤ 0xFFF ∧
    0xFFF < ({ st [] with pc := 0xFFC#12 } : State).pc.toNat + 4 := by decide +kernel

theorem witness_JumpSetsPc : opOf 0x1FFF#16 = 0x1#4 := by decide +kernel

theorem witness_CallPushesItsOwnAddress :
    ({ st [] with sp := 15#5 } : State).sp.toNat < 16 ∧ ({ st [] with sp := 16#5 } : State).sp.toNat = 16 := by decide +kernel

/-- The deepest live entry, its return address in range and not; and an empty stack. -/
theorem witness_ReturnPopsAndAddsTwo :
    (∃ s : State, 0 < s.sp.toNat ∧ s.sp.toNat ≤ 16 ∧ s.stack[s.sp.toNat - 1]? = some 0xFFD#12 ∧ (0xFFD#12).toNat + 2 ≤ 0xFFF) ∧
    (∃ s : State, 0 < s.sp.toNat ∧ s.sp.toNat ≤ 16 ∧ s.stack[s.sp.toNat - 1]? = some 0xFFE#12 ∧ 0xFFF < (0xFFE#12).toNat + 2) ∧
    (st []).sp.toNat = 0 :=
  ⟨⟨{ st [] with sp := 16#5, stack := (st []).stack.set 15 0xFFD#12 }, by decide +kernel⟩,
    ⟨{ st [] with sp := 1#5, stack := (st []).stack.set 0 0xFFE#12 }, by decide +kernel⟩, rfl⟩

theorem witness_ReturnContinuesAfterTheCall :
    ∃ t, exec (.call 0x300#12) { st [] with pc := 0xFFD#12, sp := 15#5 } = .next t ∧
      ({ st [] with pc := 0xFFD#12, sp := 15#5 } : State).pc.toNat + 2 ≤ 0xFFF ∧ t.sp = t.sp ∧ t.stackAt 15 = t.stackAt 15 :=
  ⟨_, rfl, by decide +kernel, rfl, rfl⟩

theorem witness_JumpWithOffsetUsesV0 : (0xF00#12).toNat + ((st [(0, 0xFF)]).reg 0x0#4).toNat ≤ 0xFFF ∧
    0xFFF < (0xFFF#12).toNat + ((st [(0, 1)]).reg 0x0#4).toNat := by decide +kernel

theorem witness_SelfJumpChangesNothing : ((st []).store 0x200 [0x12#8, 0x00#8]).Ended := rfl

theorem witness_AddAndSubtractWithFlag : (0xE#4 : Nibble) ≠ 0xF#4 ∧ (0x0#4 : Nibble) ≠ 0xF#4 ∧
    0xFF = ((st [(14, 0xFF), (0, 1)]).reg 0xE#4).toNat ∧ 1 = ((st [(14, 0xFF), (0, 1)]).reg 0x0#4).toNat := by decide +kernel

theorem witness_ShiftsIgnoreTheSecondRegister : (0xE#4 : Nibble) ≠ 0xF#4 ∧ 0x81 = ((st [(14, 0x81)]).reg 0xE#4).toNat := by
  decide +kernel

/-- With the carry and the comparisons both ways. -/
theorem witness_FlagRegisterAsSource : (0xE#4 : Nibble) ≠ 0xF#4 ∧
    (0x10 = ((st [(14, 0x10), (15, 0xF5)]).reg 0xE#4).toNat ∧ 0xF5 = ((st [(14, 0x10), (15, 0xF5)]).reg 0xF#4).toNat ∧
      1 = (if 0x10 + 0xF5 > 255 then 1 else 0) ∧ 0 = (if 0x10 > 0xF5 then 1 else 0)) ∧
    (5 = ((st [(14, 5), (15, 3)]).reg 0xE#4).toNat ∧ 3 = ((st [(14, 5), (15, 3)]).reg 0xF#4).toNat ∧
      0 = (if 5 + 3 > 255 then 1 else 0) ∧ 1 = (if 5 > 3 then 1 else 0)) := by decide +kernel

theorem witness_FlagRegisterAsDestination : (0x0#4 : Nibble) ≠ 0xF#4 ∧
    (0xF0 = ((st [(15, 0xF0), (0, 0x20)]).reg 0xF#4).toNat ∧ 0x20 = ((st [(15, 0xF0), (0, 0x20)]).reg 0x0#4).toNat ∧
      1 = (if 0xF0 + 0x20 > 255 then 1 else 0) ∧ 1 = (if 0xF0 > 0x20 then 1 else 0) ∧ 0 = (if 0x20 > 0xF0 then 1 else 0)) ∧
    (0x7F = ((st [(15, 0x7F)]).reg 0xF#4).toNat ∧ ¬ 2 * 0x7F > 255) ∧ (0x80 = ((st [(15, 0x80)]).reg 0xF#4).toNat ∧ 2 * 0x80 > 255) := by
  decide +kernel

theorem witness_LoadAddressAndFontAddress : (0x4FB#12 : Addr).toNat = ((st [(3, 0xFF)]).reg 0x3#4).toNat * 5 := by decide +kernel

/-- The sum at 0xFFF and just above it, with `x` other than 15 and with `x = 15`. -/
theorem witness_AddToAddressRegister :
    0 = (if (0xF01#12 : Addr).toNat + ((st [(0, 0xFE)]).reg 0x0#4).toNat > 0xFFF then 1 else 0) ∧
    1 = (if (0xFFF#12 : Addr).toNat + ((st [(0, 1)]).reg 0x0#4).toNat > 0xFFF then 1 else 0) ∧
    1 = (if (0xFFF#12 : Addr).toNat + ((st [(15, 5)]).reg 0xF#4).toNat > 0xFFF then 1 else 0) ∧
    (0x0#4 : Nibble) ≠ 0xF#4 := by decide +kernel

theorem witness_BcdStoresThreeDigits : ({ st [] with ireg := 0xFFD#12 } : State).mem.wf ∧ (st []).pc.toNat + 2 ≤ 0xFFF ∧
    ({ st [] with ireg := 0xFFD#12 } : State).effAddr 2 ≤ 0xFFF := by decide +kernel

/-- All sixteen registers at the top of memory, and one at the last byte; for the store and for the load. -/
theorem witness_StoreRegisters : ({ st [] with ireg := 0xFF0#12 } : State).mem.wf ∧ (st []).pc.toNat + 2 ≤ 0xFFF ∧
    ({ st [] with ireg := 0xFF0#12 } : State).effAddr (0xF#4).toNat ≤ 0xFFF ∧
    ({ st [] with ireg := 0xFFF#12 } : State).effAddr (0x0#4).toNat ≤ 0xFFF := by decide +kernel

theorem witness_LoadRegisters : ({ st [] with pc := 0xFFD#12 } : State).pc.toNat + 2 ≤ 0xFFF ∧
    ({ st [] with pc := 0xFFD#12, ireg := 0xFF0#12 } : State).effAddr (0xF#4).toNat ≤ 0xFFF := by decide +kernel

theorem witness_StoreThenLoadRestoresRegisters :
    (st []).mem.wf ∧ ∃ t, exec (.stm 0xF#4) { st [(3, 7)] with ireg := 0xFF0#12 } = .next t ∧ t.pc.toNat + 2 ≤ 0xFFF :=
  ⟨by decide +kernel, _, rfl, by decide +kernel⟩

theorem witness_StoreIsSeenByTheNextFetch : (st []).mem.wf ∧ 1 ≤ (0x1#4).toNat ∧
    ({ st [] with pc := 0xFFC#12, ireg := 0xFFE#12 } : State).ireg.toNat =
      ({ st [] with pc := 0xFFC#12, ireg := 0xFFE#12 } : State).pc.toNat + 2 ∧
    ({ st [] with pc := 0xFFC#12, ireg := 0xFFE#12 } : State).effAddr (0x1#4).toNat ≤ 0xFFF := by decide +kernel

/-- A state with a row of four set bits at `I`. -/
def sprited : State := ({ st [] with ireg := 0x300#12 } : State).store 0x300 [0xF0#8]

/-- The same over a framebuffer in which one of the targeted cells is set. -/
def spritedOver : State := { sprited with fb := cells [3] }

/-- Fifteen rows at the top of memory, and no row with `I` at the last byte; a cell the sprite targets and one it does not. -/
theorem witness_DrawInvertsTheTargetedCells : sprited.pc.toNat + 2 ≤ 0xFFF ∧
    ((0x0#4 : Nibble) = 0x0#4 ∨ (0xFFF#12 : Addr).toNat + (0x0#4).toNat - 1 ≤ 0xFFF) ∧
    ((0xF#4 : Nibble) = 0x0#4 ∨ (0xFF1#12 : Addr).toNat + (0xF#4).toNat - 1 ≤ 0xFFF) ∧
    (sprited.SpriteTargets 0#8 0#8 1 3 ∧ sprited.cell 3 = false) ∧ ¬ sprited.SpriteTargets 0#8 0#8 1 4 ∧
    (∀ p < 2048, sprited.SpriteTargets 0#8 0#8 0 p → sprited.cell p = false) ∧
    (spritedOver.SpriteTargets 0#8 0#8 1 3 ∧ spritedOver.cell 3 = true) := by
  refine ⟨by decide +kernel, by decide +kernel, by decide +kernel, ⟨⟨0, by decide, 3, by decide, by decide +kernel, rfl⟩, by decide +kernel⟩,
    ?_, ?_, ⟨⟨0, by decide, 3, by decide, by decide +kernel, rfl⟩, by decide +kernel⟩⟩
  · rintro ⟨row, hr, col, hc, hs, hp⟩
    obtain rfl : row = 0 := by omega
    have : ∀ c < 8, sprited.spriteSet 0 c = true → (4 : Nat) ≠ ((0#8).toNat + c + ((0#8).toNat + 0) * 64) % 2048 := by decide +kernel
    exact this col hc hs hp
  · rintro p - ⟨row, hr, -⟩
    omega

/-- The two draws complete; after a draw on a clear screen some targeted cell was 0, and with no row every targeted cell was 1. -/
theorem witness_DrawingTwiceRestoresTheFramebuffer : (0x0#4 : Nibble) ≠ 0xF#4 ∧ (0x1#4 : Nibble) ≠ 0xF#4 ∧
    (∃ t u, exec (.drw 0x0#4 0x1#4 0x1#4) sprited = .next t ∧ exec (.drw 0x0#4 0x1#4 0x1#4) t = .next u) ∧
    (sprited.SpriteTargets 0#8 0#8 1 3 ∧ sprited.cell 3 = false) ∧
    (∀ p < 2048, sprited.SpriteTargets 0#8 0#8 0 p → sprited.cell p = true) := by
  refine ⟨by decide, by decide, ⟨_, _, rfl, rfl⟩, ⟨⟨0, by decide, 3, by decide, by decide +kernel, rfl⟩, by decide +kernel⟩, ?_⟩
  rintro p - ⟨row, hr, -⟩
  omega

theorem witness_SpriteBitsLandOnDistinctScreenCells :
    14 < 15 ∧ 7 < 8 ∧ cellIndex 0xFF#8 0xFF#8 14 7 = cellIndex 0xFF#8 0xFF#8 14 7 := by decide +kernel

theorem witness_KeySkips : 15 = ((st [(0, 15)]).reg 0x0#4).toNat ∧ 15 ≤ 15 ∧ 16 = ((st [(0, 16)]).reg 0x0#4).toNat ∧ 15 < 16 ∧
    ((st [(0, 15)]).setKey 15 true).key 15 = true ∧ (st [(0, 15)]).key 15 = false := by decide +kernel

theorem witness_KeyWaitTakesTheLowestKey : (st []).NoKey ∧ ((st []).setKey 15 true).LowestPressed 15 ∧
    (((st []).setKey 15 true).setKey 0 true).LowestPressed 0 := by
  simp only [State.NoKey, State.LowestPressed]
  decide +kernel

theorem witness_KeyWaitHoldsWhileTicksGoOn :
    ∃ s : State, fetch s = .ok 0xF00A#16 ∧ decodeWord 0xF00A#16 = some (.wkey 0x0#4) ∧ s.NoKey ∧
      ∀ e ∈ [Event.step, .tick, .step], e = .step ∨ e = .tick :=
  ⟨(st []).store 0x200 [0xF0#8, 0x0A#8], rfl, rfl, by simp only [State.NoKey]; decide +kernel, by decide +kernel⟩

/-- A forbidden element of every kind, for an instruction that completes. -/
theorem witness_InstructionsWriteOnlyWhatTheMatrixAllows : (st []).mem.wf ∧
    (∃ t, exec (.stm 0x0#4) { st [] with ireg := 0x300#12 } = .next t) ∧
    (∀ e ∈ [Element.v 0xF#4, .ireg, .stack 0, .sp, .dt, .st, .keys, .fb 2047, .dirty, .mem 0x301, .mem 0x2FF, .draws],
      mayWrite (.stm 0x0#4) { st [] with ireg := 0x300#12 } e = false) :=
  ⟨by decide +kernel, ⟨_, rfl⟩, by decide +kernel⟩

theorem witness_TimersChangeOnlyByTheirOwnEvents :
    (∃ t r, deliver .step ((st [(0, 3)]).store 0x200 [0xF0#8, 0x15#8]) = .ok (t, r)) ∧ (Event.step ≠ .tick ∧ Event.step ≠ .reset) :=
  ⟨⟨_, _, rfl⟩, by decide +kernel⟩

theorem witness_DirtyFlagProtocol :
    (∃ t, deliver .step ((st []).store 0x200 [0x00#8, 0xE0#8]) = .ok (t, none)) ∧
    (∃ t, deliver .dirtyClear { st [] with dirty := true } = .ok (t, none)) := ⟨⟨_, rfl⟩, ⟨_, rfl⟩⟩

theorem witness_StatusOutputsNeverSteerTheCore :
    (∃ f, step { st [] with pc := 0xFFF#12 } = .fault f) ∧ ∃ t, step (st []) = .next t := ⟨⟨_, rfl⟩, ⟨_, rfl⟩⟩

theorem witness_KeyEventsSetAndClearOneKey : 15 < 16 ∧ 16 ≤ 16 := by decide

theorem witness_LoadCopiesTheImage : State.reset.mem.wf ∧ (List.replicate 3584 0xAA#8).length ≤ 3584 ∧
    3584 < (List.replicate 3585 0xAA#8).length := by decide +kernel

theorem witness_OutputsReadTheState : 2047 < 2048 ∧ 2048 ≤ 2048 := by decide

end Sys2Proof.Tests
end

namespace Sys2Proof.Machine

/-! ### What the accessors read after reset (10 R38) -/

@[simp] theorem State.reset_reg (x : Nibble) : State.reset.reg x = 0#8 :=
  Vector.getElem_replicate x.isLt

@[simp] theorem State.reset_stackAt {k : Nat} (h : k < 16) : State.reset.stackAt k = 0#12 := by
  simp [State.stackAt, State.reset, h]

@[simp] theorem State.reset_key {k : Nat} (h : k < 16) : State.reset.key k = false := by
  simp [State.key, State.reset, h]

@[simp] theorem State.reset_cell (p : Nat) : State.reset.cell p = false := BitVec.getLsbD_zero

/-- Reset lists no cell, so every address reads as its reset contents. -/
@[simp] theorem State.reset_mem_read (a : Nat) : State.reset.mem.read a = Memory.unlisted a :=
  Memory.read_nil a

/-- Settles O15: the fields are literals of `State.reset`; each indexed element goes by what its accessor reads after reset,
and memory splits at 0x50 into the font region and the zeros above it. -/
theorem resetLeavesTheStatedValues : Obligations.ResetLeavesTheStatedValues :=
  have hfont : ∀ a < 0x50, State.reset.mem.read a = fontByte a := fun a h =>
    (State.reset_mem_read a).trans (Memory.unlisted_of_lt h)
  have hrest : ∀ a, 0x50 ≤ a → a ≤ 0xFFF → State.reset.mem.read a = 0#8 := fun a h _ =>
    (State.reset_mem_read a).trans (Memory.unlisted_of_ge h)
  ⟨State.reset_reg, rfl, rfl, fun _ => State.reset_stackAt, rfl, rfl, rfl, fun _ => State.reset_key,
    fun p _ => State.reset_cell p, rfl, rfl, hfont, hrest⟩

end Sys2Proof.Machine

namespace Sys2Proof

/-! ### The two bytes of a fetched word (20 R51) -/

@[simp] theorem wordOf_highByte (hi lo : Byte) : (wordOf hi lo).extractLsb' 8 8 = hi :=
  BitVec.extractLsb'_append_eq_left

@[simp] theorem wordOf_lowByte (hi lo : Byte) : (wordOf hi lo).extractLsb' 0 8 = lo :=
  BitVec.extractLsb'_append_eq_right

end Sys2Proof

namespace Sys2Proof.Machine

/-- Wherever both bytes of the word are in memory, the fetch answers (40 R91): only 0xFFF is excluded. -/
theorem fetch_of_le {s : State} (h : s.pc.toNat ≤ 0xFFE) :
    fetch s = .ok (wordOf (s.mem.read s.pc.toNat) (s.mem.read (s.pc.toNat + 1))) := by
  have hne : s.pc ≠ 0xFFF#12 := fun e => absurd (e ▸ h) (by decide)
  rw [fetch_eq, if_neg hne]

/-- Settles O8: the fetched word is `wordOf` of the two bytes, whose value and whose halves are those of an append. -/
theorem fetchIsBigEndian : Obligations.FetchIsBigEndian := fun _ h =>
  ⟨_, fetch_of_le h, wordOf_toNat _ _, wordOf_highByte _ _, wordOf_lowByte _ _⟩

end Sys2Proof.Machine

namespace Sys2Proof

/-! ### Decoding the jump (30 R77) -/

/-- Family 1 needs no second selector: the whole address field is the operand. -/
theorem decodeWord_of_family1 {w : Word} (h : opOf w = 0x1#4) : decodeWord w = some (.jp (nnnOf w)) := by
  rw [decodeWord, h]; rfl

end Sys2Proof

namespace Sys2Proof.Machine

/-! ### Transfers to an address (40 R93, 41 R101) -/

/-- `complete` in the terms claims are stated in, at a target that is an address and so needs no range check. -/
theorem complete_addr_completes (a : Addr) (s : State) : Completes (complete a.toNat s) { s with pc := a } :=
  ⟨_, complete_next_iff.mpr rfl, by rw [ofNat_toNat12]⟩

theorem exec_jp (nnn : Addr) (s : State) : exec (.jp nnn) s = complete nnn.toNat s := rfl

/-- Settles O21: family 1 decodes to the jump alone, and the jump is `complete` at its operand with no effect before it. -/
theorem jumpSetsPc : Obligations.JumpSetsPc :=
  have hdecode : ∀ w : Word, opOf w = 0x1#4 → decodeWord w = some (.jp (w.extractLsb' 0 12)) := fun _ => decodeWord_of_family1
  have hjump (s : State) (nnn : Addr) : Completes (exec (.jp nnn) s) { s with pc := nnn } := by
    rw [exec_jp]; exact complete_addr_completes nnn s
  ⟨hdecode, hjump⟩

end Sys2Proof.Machine

namespace Sys2Proof.Machine

/-! ### Sequences of events (60 R190) -/

/-- An admitted event hands its state to the events after it; what it reports does not matter to them. -/
theorem runEvents_cons_of_ok {e : Event} {s t : State} {r : Option Report} (h : deliver e s = .ok (t, r)) (es : List Event) :
    runEvents (e :: es) s = runEvents es t := by
  rw [runEvents, h]

/-! ### The timers count down (60 R185) -/

/-- The clamp at 0 is the truncated subtraction of `Nat`. -/
@[simp] theorem countDown_toNat (b : Byte) : (countDown b).toNat = b.toNat - 1 := by
  unfold countDown
  split
  · next hpos => exact BitVec.toNat_sub_of_le (BitVec.le_def.mpr hpos)
  · next hzero => simp [Nat.eq_zero_of_not_pos hzero]

theorem countDown_eq_ofNat (b : Byte) : countDown b = BitVec.ofNat 8 (b.toNat - 1) := by
  rw [← countDown_toNat, BitVec.ofNat_toNat, BitVec.setWidth_eq]

@[simp] theorem State.tick_dt (s : State) : s.tick.dt = countDown s.dt := rfl

@[simp] theorem State.tick_st (s : State) : s.tick.st = countDown s.st := rfl

/-- The frame of a tick: an update of the two timers sees nothing of the tick before it. -/
@[simp] theorem State.tick_with_timers (s : State) (d c : Byte) :
    { s.tick with dt := d, st := c } = { s with dt := d, st := c } := rfl

theorem deliver_tick (s : State) : deliver .tick s = .ok (s.tick, none) := rfl

theorem State.tick_eq (s : State) :
    s.tick = { s with dt := BitVec.ofNat 8 (s.dt.toNat - 1), st := BitVec.ofNat 8 (s.st.toNat - 1) } := by
  rw [← countDown_eq_ofNat, ← countDown_eq_ofNat]; rfl

/-- By induction on the number of ticks, from any state: the first tick takes 1 from each timer, the others take `n` more. -/
theorem runEvents_replicate_tick (s : State) (n : Nat) :
    runEvents (List.replicate n .tick) s =
      .ok { s with dt := BitVec.ofNat 8 (s.dt.toNat - n), st := BitVec.ofNat 8 (s.st.toNat - n) } := by
  induction n generalizing s with
  | zero => simp [runEvents]
  | succ n ih =>
    have hsub (b : Byte) : (countDown b).toNat - n = b.toNat - (n + 1) := by rw [countDown_toNat]; omega
    rw [List.replicate_succ, runEvents_cons_of_ok (deliver_tick s), ih s.tick, State.tick_dt, State.tick_st, hsub, hsub,
      State.tick_with_timers]

/-- Settles O56: one tick is two clamped subtractions of 1, and each further tick of a sequence subtracts 1 more. -/
theorem ticksCountTheTimersDown : Obligations.TicksCountTheTimersDown := fun s n =>
  ⟨by rw [deliver_tick, State.tick_eq], runEvents_replicate_tick s n⟩

end Sys2Proof.Machine

namespace Sys2Proof.Machine

/-! ### The DIRTY bit and the sound output (60 R187, R188) -/

theorem deliver_dirtyClear (s : State) : deliver .dirtyClear s = .ok ({ s with dirty := false }, none) := rfl

theorem State.audioOn_iff (s : State) : s.audioOn = true ↔ s.st.toNat ≠ 0 := by
  rw [State.audioOn, bne_iff_ne, ← BitVec.toNat_ne_iff_ne, BitVec.toNat_zero]

/-- Settles O57: `dirty_clear` writes the one field, the outputs are the fields, and the audio trigger compares `ST` with 0. -/
theorem dirtyClearAndSoundOutput : Obligations.DirtyClearAndSoundOutput := fun s =>
  have hdirtyOut : s.dirtyOut = s.dirty := rfl
  have hsoundOut : s.soundOut = s.st := rfl
  ⟨deliver_dirtyClear s, hdirtyOut, hsoundOut, s.audioOn_iff⟩

end Sys2Proof.Machine

namespace Sys2Proof

/-! ### Encoding and decoding are inverse (30 R72, R76, R77) -/

/-- The decoder reads back what the encoder wrote: the family and the second selector of each format are literals, and the operand
fields are the operands. -/
theorem decodeWord_encode (i : Instr) : decodeWord (encode i) = some i := by
  cases i with
  | cls | ret => rfl
  | jp _ | call _ | lda _ | jpv0 _ => simp [encode, decodeWord]
  | sei _ _ | snei _ _ | ldi _ _ | addi _ _ | rnd _ _ => simp [encode, decodeWord]
  | drw _ _ _ => simp [encode, decodeWord]
  | ser _ _ => simp [encode, decodeWord, decodeFamily5]
  | sner _ _ => simp [encode, decodeWord, decodeFamily9]
  | mov _ _ | or _ _ | and _ _ | xor _ _ | add _ _ | sub _ _ | shr _ _ | subn _ _ | shl _ _ =>
    simp [encode, decodeWord, decodeFamily8]
  | skp _ | sknp _ => simp [encode, decodeWord, decodeFamilyE]
  | lddt _ | wkey _ | stdt _ | stst _ | adda _ | font _ | bcd _ | stm _ | ldm _ =>
    simp [encode, decodeWord, decodeFamilyF]

/-- Settles O1: the case split is by format, and each format's fields are its operands. -/
theorem decodeInvertsEncode : Obligations.DecodeInvertsEncode := decodeWord_encode

/-- Settles O3: the two bytes put the word together again, and the word decodes to the instruction. -/
theorem bytesOfAnInstructionDecodeToIt : Obligations.BytesOfAnInstructionDecodeToIt := fun i rest => by
  simp only [encodeBytes, List.cons_append, List.nil_append, decode, wordOf_bytes, decodeWord_encode]

/-- Settles O7: each word is evaluated by the decoder. -/
theorem writtenOutWordsDecode : Obligations.WrittenOutWordsDecode :=
  ⟨rfl, rfl, rfl, rfl, rfl, rfl, rfl, rfl, rfl⟩

section
variable {w : Word} {op n : Nibble} {kk : Byte}

/-- A word whose selectors are known is the format of those selectors and its own operand fields. -/
theorem formatA_of_op (hop : (opOf w).toNat = op.toNat) : formatA op (nnnOf w) = w := by
  rw [← BitVec.eq_of_toNat_eq hop, formatA_fields]

theorem formatXK_of_op (hop : (opOf w).toNat = op.toNat) : formatXK op (xOf w) (kkOf w) = w := by
  rw [← BitVec.eq_of_toNat_eq hop, formatXK_fields]

theorem formatXYN_of_op (hop : (opOf w).toNat = op.toNat) : formatXYN op (xOf w) (yOf w) (nOf w) = w := by
  rw [← BitVec.eq_of_toNat_eq hop, formatXYN_fields]

theorem formatXK_of_op_kk (hop : (opOf w).toNat = op.toNat) (hkk : (kkOf w).toNat = kk.toNat) : formatXK op (xOf w) kk = w := by
  rw [← BitVec.eq_of_toNat_eq hkk, formatXK_of_op hop]

theorem formatXYN_of_op_n (hop : (opOf w).toNat = op.toNat) (hn : (nOf w).toNat = n.toNat) :
    formatXYN op (xOf w) (yOf w) n = w := by
  rw [← BitVec.eq_of_toNat_eq hn, formatXYN_of_op hop]

end

section
variable {w : Word} {i : Instr}

theorem encode_of_decodeFamily0 (hop : (opOf w).toNat = 0x0) (h : decodeFamily0 w = some i) : encode i = w := by
  have hw : formatA 0x0#4 (nnnOf w) = w := formatA_of_op hop
  unfold decodeFamily0 at h
  split at h
  · next hnnn => cases h; rw [← hw, show nnnOf w = 0x0E0#12 from BitVec.eq_of_toNat_eq hnnn]; rfl
  · next hnnn => cases h; rw [← hw, show nnnOf w = 0x0EE#12 from BitVec.eq_of_toNat_eq hnnn]; rfl
  · cases h

theorem encode_of_decodeFamily5 (hop : (opOf w).toNat = 0x5) (h : decodeFamily5 w = some i) : encode i = w := by
  unfold decodeFamily5 at h
  split at h <;> cases h
  exact formatXYN_of_op_n hop ‹_›

theorem encode_of_decodeFamily8 (hop : (opOf w).toNat = 0x8) (h : decodeFamily8 w = some i) : encode i = w := by
  unfold decodeFamily8 at h
  split at h <;> cases h
  all_goals exact formatXYN_of_op_n hop ‹_›

theorem encode_of_decodeFamily9 (hop : (opOf w).toNat = 0x9) (h : decodeFamily9 w = some i) : encode i = w := by
  unfold decodeFamily9 at h
  split at h <;> cases h
  exact formatXYN_of_op_n hop ‹_›

theorem encode_of_decodeFamilyE (hop : (opOf w).toNat = 0xE) (h : decodeFamilyE w = some i) : encode i = w := by
  unfold decodeFamilyE at h
  split at h <;> cases h
  all_goals exact formatXK_of_op_kk hop ‹_›

theorem encode_of_decodeFamilyF (hop : (opOf w).toNat = 0xF) (h : decodeFamilyF w = some i) : encode i = w := by
  unfold decodeFamilyF at h
  split at h <;> cases h
  all_goals exact formatXK_of_op_kk hop ‹_›

/-- The encoder writes back every bit the decoder read. The cases are the sixteen families by their format, and the one that no
family reaches. -/
theorem encode_of_decodeWord (h : decodeWord w = some i) : encode i = w := by
  unfold decodeWord at h
  split at h
  case h_1 hop => exact encode_of_decodeFamily0 hop h
  case h_2 hop | h_3 hop | h_11 hop | h_12 hop => cases h; exact formatA_of_op hop
  case h_4 hop | h_5 hop | h_7 hop | h_8 hop | h_13 hop => cases h; exact formatXK_of_op hop
  case h_6 hop => exact encode_of_decodeFamily5 hop h
  case h_9 hop => exact encode_of_decodeFamily8 hop h
  case h_10 hop => exact encode_of_decodeFamily9 hop h
  case h_14 hop => cases h; exact formatXYN_of_op hop
  case h_15 hop => exact encode_of_decodeFamilyE hop h
  case h_16 hop => exact encode_of_decodeFamilyF hop h
  case h_17 => cases h

end

/-- Settles O2: in each family the word is the format of its family, its second selector and its own operand fields. -/
theorem encodeInvertsDecode : Obligations.EncodeInvertsDecode := fun _ _ => encode_of_decodeWord

/-- The decoder and the encoder as one equivalence: a word decodes to an instruction exactly when it is its word. -/
theorem decodeWord_eq_some_iff {w : Word} {i : Instr} : decodeWord w = some i ↔ encode i = w :=
  ⟨encode_of_decodeWord, fun h => h ▸ decodeWord_encode i⟩

end Sys2Proof

namespace Sys2Proof.Laws.EncodesItsRow

/-- The family in one statement. -/
theorem all (i : Instr) : Statement i := by
  cases i
  exacts [cls, ret, jp _, call _, sei _ _, snei _ _, ser _ _, sner _ _, ldi _ _, addi _ _, mov _ _, or _ _, and _ _, xor _ _,
    add _ _, sub _ _, shr _ _, subn _ _, shl _ _, lda _, jpv0 _, rnd _ _, drw _ _ _, skp _, sknp _, lddt _, wkey _, stdt _,
    stst _, adda _, font _, bcd _, stm _, ldm _]

end Sys2Proof.Laws.EncodesItsRow

namespace Sys2Proof

/-! ### The opcode map (30 R75, R76) -/

/-- The bits that the two stages of 30 R74 examine, by family: the family alone, or with it the second selector of R77. -/
def selectorMask (op : Nibble) : Word :=
  match op.toNat with
  | 0x0 => 0xFFFF#16
  | 0x5 | 0x8 | 0x9 => 0xF00F#16
  | 0xE | 0xF => 0xF0FF#16
  | _ => 0xF000#16

/-- The mnemonic a word decodes to. -/
def mnemonicOf (w : Word) : Option String := (decodeWord w).map Instr.mnemonic

theorem mnemonicOf_eq_some_iff {w : Word} {m : String} :
    mnemonicOf w = some m ↔ ∃ i, decodeWord w = some i ∧ i.mnemonic = m :=
  Option.map_eq_some_iff

section
variable {w u : Word}

theorem eq_of_and_FFFF (h : w &&& 0xFFFF#16 = u &&& 0xFFFF#16) : w = u := by
  rwa [show 0xFFFF#16 = BitVec.allOnes 16 from rfl, BitVec.and_allOnes, BitVec.and_allOnes] at h

theorem op_eq_of_and_F000 (h : w &&& 0xF000#16 = u &&& 0xF000#16) : opOf w = opOf u := by
  simpa [Laws.and_F000] using congrArg opOf h

theorem op_n_eq_of_and_F00F (h : w &&& 0xF00F#16 = u &&& 0xF00F#16) : opOf w = opOf u ∧ nOf w = nOf u := by
  rw [Laws.and_F00F, Laws.and_F00F] at h
  have hn : (nOf w).setWidth 8 = (nOf u).setWidth 8 := by simpa using congrArg kkOf h
  exact ⟨by simpa using congrArg opOf h, BitVec.eq_of_toNat_eq (by
    rw [← BitVec.toNat_setWidth_of_le (show 4 ≤ 8 by decide), hn, BitVec.toNat_setWidth_of_le (by decide)])⟩

theorem op_kk_eq_of_and_F0FF (h : w &&& 0xF0FF#16 = u &&& 0xF0FF#16) : opOf w = opOf u ∧ kkOf w = kkOf u := by
  rw [Laws.and_F0FF, Laws.and_F0FF] at h
  exact ⟨by simpa using congrArg opOf h, by simpa using congrArg kkOf h⟩

/-- The two stages look at the bits of the selector mask and at no other: words that agree there decode to one mnemonic. -/
theorem mnemonicOf_congr (h : w &&& selectorMask (opOf u) = u &&& selectorMask (opOf u)) : mnemonicOf w = mnemonicOf u := by
  unfold selectorMask at h
  split at h
  case h_1 => rw [eq_of_and_FFFF h]
  case h_2 hop | h_3 hop | h_4 hop =>
    obtain ⟨ho, hn⟩ := op_n_eq_of_and_F00F h
    simp only [mnemonicOf, decodeWord, ho, hop, decodeFamily5, decodeFamily8, decodeFamily9, hn]
    split <;> rfl
  case h_5 hop | h_6 hop =>
    obtain ⟨ho, hkk⟩ := op_kk_eq_of_and_F0FF h
    simp only [mnemonicOf, decodeWord, ho, hop, decodeFamilyE, decodeFamilyF, hkk]
    split <;> rfl
  case h_7 =>
    simp only [mnemonicOf, decodeWord, op_eq_of_and_F000 h]
    split
    case h_1 | h_6 | h_9 | h_10 | h_15 | h_16 => contradiction
    all_goals rfl

end

/-- What the table says of each row: its mask is its family's selector mask, its match lies under the mask and is itself a word of
the row's instruction. -/
theorem opcodeRows_mask_value : ∀ r ∈ opcodeRows,
    r.mask = selectorMask (opOf r.value) ∧ r.value &&& r.mask = r.value ∧ mnemonicOf r.value = some r.mnemonic := by
  decide

/-- A mnemonic names one row. -/
theorem opcodeRows_mnemonic_inj : ∀ r ∈ opcodeRows, ∀ q ∈ opcodeRows, r.mnemonic = q.mnemonic → r = q := by
  decide

theorem OpcodeRow.covers_iff {r : OpcodeRow} {w : Word} : r.covers w = true ↔ w &&& r.mask = r.value := beq_iff_eq

theorem mnemonicOf_of_covers {w : Word} {r : OpcodeRow} (hr : r ∈ opcodeRows) (hc : r.covers w = true) :
    mnemonicOf w = some r.mnemonic := by
  obtain ⟨hmask, hvalue, hm⟩ := opcodeRows_mask_value r hr
  rw [OpcodeRow.covers_iff] at hc
  rw [← hm]
  exact mnemonicOf_congr (by rw [← hmask, hc, hvalue])

/-- Settles O4: a covered word agrees with the row's match on the bits the decoder examines, so it decodes to the same mnemonic; a
word that decodes is the word of its instruction, which the row of its mnemonic covers, and the mnemonic names one row. -/
theorem decodingFollowsTheOpcodeMap : Obligations.DecodingFollowsTheOpcodeMap := by
  intro w r hr
  refine ⟨fun hc => mnemonicOf_eq_some_iff.mp (mnemonicOf_of_covers hr hc), ?_⟩
  rintro ⟨i, hi, him⟩
  obtain ⟨q, hq, hqm, hqc⟩ := Laws.EncodesItsRow.all i
  rwa [← encode_of_decodeWord hi, opcodeRows_mnemonic_inj r hr q hq (him.symm.trans hqm.symm)]

/-- Settles O5: two rows that cover a word both carry the mnemonic it decodes to. -/
theorem opcodeRowsAreMutuallyExclusive : Obligations.OpcodeRowsAreMutuallyExclusive := fun _ r hr q hq hrw hqw =>
  opcodeRows_mnemonic_inj r hr q hq
    (Option.some.inj ((mnemonicOf_of_covers hr hrw).symm.trans (mnemonicOf_of_covers hq hqw)))

/-! ### The undecodable words (30 R80) -/

section
variable {w : Word}

theorem decodeFamily0_none_iff (hop : opOf w = 0x0#4) : decodeFamily0 w = none ↔ w ≠ 0x00E0#16 ∧ w ≠ 0x00EE#16 := by
  have hw : w.toNat = (nnnOf w).toNat := by rw [← formatA_fields w, formatA_toNat, hop, nnnOf_formatA]; simp
  unfold decodeFamily0
  split <;> simp_all [← BitVec.toNat_inj]

theorem decodeFamily5_none_iff : decodeFamily5 w = none ↔ nOf w ≠ 0x0#4 := by
  unfold decodeFamily5
  split <;> simp_all [← BitVec.toNat_inj]

theorem decodeFamily8_none_iff :
    decodeFamily8 w = none ↔ nOf w ∈ [0x8#4, 0x9#4, 0xA#4, 0xB#4, 0xC#4, 0xD#4, 0xF#4] := by
  have hlt := (nOf w).isLt
  unfold decodeFamily8
  split
  case h_10 => simp_all [← BitVec.toNat_inj]; omega
  all_goals simp_all [← BitVec.toNat_inj]

theorem decodeFamily9_none_iff : decodeFamily9 w = none ↔ nOf w ≠ 0x0#4 := by
  unfold decodeFamily9
  split <;> simp_all [← BitVec.toNat_inj]

theorem decodeFamilyE_none_iff : decodeFamilyE w = none ↔ kkOf w ∉ [0x9E#8, 0xA1#8] := by
  unfold decodeFamilyE
  split <;> simp_all [← BitVec.toNat_inj]

theorem decodeFamilyF_none_iff :
    decodeFamilyF w = none ↔ kkOf w ∉ [0x07#8, 0x0A#8, 0x15#8, 0x18#8, 0x1E#8, 0x29#8, 0x33#8, 0x55#8, 0x65#8] := by
  unfold decodeFamilyF
  split <;> simp_all [← BitVec.toNat_inj]

end

/-- Settles O6: a family without a second selector decodes every word, and the six others refuse the selectors they do not
list. -/
theorem undecodableWordsExactly : Obligations.UndecodableWordsExactly := by
  intro w
  unfold decodeWord
  split
  case h_1 hop =>
    have ho : opOf w = 0x0#4 := BitVec.eq_of_toNat_eq hop
    simp [decodeFamily0_none_iff ho, ho]
  case h_6 hop => simp [decodeFamily5_none_iff, show opOf w = 0x5#4 from BitVec.eq_of_toNat_eq hop]
  case h_9 hop => simp [decodeFamily8_none_iff, show opOf w = 0x8#4 from BitVec.eq_of_toNat_eq hop]
  case h_10 hop => simp [decodeFamily9_none_iff, show opOf w = 0x9#4 from BitVec.eq_of_toNat_eq hop]
  case h_15 hop => simp [decodeFamilyE_none_iff, show opOf w = 0xE#4 from BitVec.eq_of_toNat_eq hop]
  case h_16 hop => simp [decodeFamilyF_none_iff, show opOf w = 0xF#4 from BitVec.eq_of_toNat_eq hop]
  case h_17 => have hlt := (opOf w).isLt; grind
  all_goals simp [← BitVec.toNat_inj, *]

end Sys2Proof

namespace Sys2Proof.Machine

/-! ### Execution as the spec's fault order, then the effect (60 R181, 40 R93)

`exec_next` says what a next state can be; `exec_eq` says in addition when there is one. -/

/-- The state in which an instruction completes: its effect, the new `pc` of 40 R93, the status of R95. -/
def afterExec (i : Instr) (s : State) : State :=
  { effectOf i s with pc := BitVec.ofNat 12 (targetOf i s), blocked := waits i s, report := none }

/-- The fault `f` if there is one, and otherwise the rest `k` of the instruction. -/
def orFault (f : Option Fault) (k : Result) : Result := f.elim k .fault

@[simp] theorem orFault_none (k : Result) : orFault none k = k := rfl

@[simp] theorem orFault_some (f : Fault) (k : Result) : orFault (some f) k = .fault f := rfl

theorem orFault_ite (c : Prop) [Decidable c] (f : Fault) (k : Result) :
    orFault (if c then some f else none) k = if c then .fault f else k := apply_ite (orFault · k) c _ _

/-- `PcOutOfRange` of a target above 0xFFF (60 R176). -/
def pcFault (t : Nat) : Option Fault := if 0xFFF < t then some (.pcOutOfRange t) else none

theorem pcFault_of_le {t : Nat} (h : t ≤ 0xFFF) : pcFault t = none := if_neg (Nat.not_lt.mpr h)

/-- `MemoryOutOfRange` of a block, if there is one, whose highest address is above 0xFFF (60 R177). -/
def memFault (a : Option Nat) : Option Fault := a.bind fun a => if 0xFFF < a then some (.memoryOutOfRange a) else none

theorem checkPc_eq_orFault (t : Nat) (k : Result) : checkPc t k = orFault (pcFault t) k :=
  (orFault_ite _ _ _).symm

theorem checkMem_eq_orFault (a : Nat) (k : Result) : checkMem a k = orFault (memFault (some a)) k :=
  (orFault_ite _ _ _).symm

theorem checkRows_eq_orFault (n : Nat) (s : State) (k : Result) :
    checkRows n s k = orFault (memFault (if n = 0 then none else some (s.effAddr (n - 1)))) k := by
  unfold checkRows
  split
  · rfl
  · exact checkMem_eq_orFault _ k

/-- The spec's fault is the first of the three kinds. -/
theorem orFault_faultOf (i : Instr) (s : State) (k : Result) :
    orFault (faultOf i s) k =
      orFault (operandFaultOf i s) (orFault (pcFault (targetOf i s)) (orFault (memFault (highestOf i s)) k)) := by
  unfold faultOf
  split
  · next f hf => rw [hf]; rfl
  · next hf =>
    rw [hf, orFault_none, pcFault, orFault_ite, apply_ite (orFault · k)]
    cases highestOf i s <;> rfl

/-- Going to a target where no operand and no block is checked. -/
theorem goTo_eq_orFault (t : Nat) (e : State) :
    goTo t e = orFault (pcFault t) (.next { e with pc := BitVec.ofNat 12 t, blocked := false, report := none }) :=
  checkPc_eq_orFault t _

/-- A skip, given its target as the table of 40 R93 writes it. -/
theorem skipIf_eq_orFault {c : Bool} {s : State} {t : Nat} (ht : t = if c then s.pc.toNat + 4 else s.pc.toNat + 2) :
    skipIf c s = orFault (pcFault t) (.next { s with pc := BitVec.ofNat 12 t, blocked := false, report := none }) :=
  ht ▸ goTo_eq_orFault _ s

theorem execWkey_eq_orFault (x : Nibble) (s : State) :
    execWkey x s = orFault (pcFault (targetOf (.wkey x) s)) (.next (afterExec (.wkey x) s)) := by
  simp only [execWkey, afterExec, targetOf, effectOf, waits]
  split
  · next hk =>
    rw [hk, if_pos rfl, pcFault_of_le (Nat.le_of_lt_succ s.pc.isLt), ofNat_toNat12]; rfl
  · next k hk =>
    simp only [hk]
    exact goTo_eq_orFault _ _

/-- The table of the highest addresses tests the row count as a field, the meaning as a number. -/
theorem highestOf_drw (x y n : Nibble) (s : State) :
    highestOf (.drw x y n) s = if n.toNat = 0 then none else some (s.effAddr (n.toNat - 1)) := by
  rw [highestOf, State.effAddr]
  refine if_ctx_congr BitVec.toNat_inj.symm (fun _ => rfl) fun hn => ?_
  rw [Nat.add_sub_assoc (Nat.one_le_iff_ne_zero.mpr hn)]

/-- Everything `exec` can answer, where `SP` is in its range or the instruction does not push: the first fault of the spec's
order, or the completed state. -/
theorem exec_eq_checks {i : Instr} {s : State} (hsp : ∀ nnn, i = .call nnn → s.sp.toNat ≤ 16) :
    exec i s = orFault (operandFaultOf i s)
      (orFault (pcFault (targetOf i s)) (orFault (memFault (highestOf i s)) (.next (afterExec i s)))) := by
  cases i with
  | ret =>
    rw [operandFaultOf, orFault_ite]
    exact if_congr Iff.rfl rfl (goTo_eq_orFault _ _)
  | jp nnn =>
    rw [targetOf, pcFault_of_le (Nat.le_of_lt_succ nnn.isLt)]; rfl
  | call nnn =>
    have h16 : s.sp.toNat ≥ 16 ↔ s.sp.toNat = 16 := ⟨fun h => Nat.le_antisymm (hsp nnn rfl) h, Nat.le_of_eq ∘ Eq.symm⟩
    rw [operandFaultOf, orFault_ite, targetOf, pcFault_of_le (Nat.le_of_lt_succ nnn.isLt)]
    exact if_congr h16 rfl rfl
  | sei x kk | ser x y | snei x kk | sner x y => exact skipIf_eq_orFault (by simp [targetOf])
  | skp x | sknp x =>
    rw [operandFaultOf, orFault_ite]
    refine if_congr Iff.rfl rfl (skipIf_eq_orFault ?_)
    cases hk : s.key (s.reg x).toNat <;> simp [targetOf, hk]
  | wkey x => exact execWkey_eq_orFault x s
  | bcd x | stm x | ldm x => exact (checkPc_eq_orFault _ _).trans (congrArg _ (checkMem_eq_orFault _ _))
  | drw x y n =>
    rw [highestOf_drw]
    exact (checkPc_eq_orFault _ _).trans (congrArg _ (checkRows_eq_orFault _ _ _))
  | _ => exact goTo_eq_orFault _ _

/-- `exec_eq_checks` in the terms of the spec's own table of faults. -/
theorem exec_eq {i : Instr} {s : State} (hsp : ∀ nnn, i = .call nnn → s.sp.toNat ≤ 16) :
    exec i s = orFault (faultOf i s) (.next (afterExec i s)) := by
  rw [exec_eq_checks hsp, orFault_faultOf]

theorem orFault_next_eq_fault_iff {f : Option Fault} {t : State} {g : Fault} :
    orFault f (.next t) = .fault g ↔ f = some g := by
  cases f <;> simp

/-- Settles O12: the checks of every meaning are those of the spec's table, in its order. -/
theorem faultsExactlyWhenTheSpecSays : Obligations.FaultsExactlyWhenTheSpecSays := fun i s f hsp => by
  rw [exec_eq fun _ _ => hsp, orFault_next_eq_fault_iff]

theorem orFault_ne_refused {f : Option Fault} {t : State} {r : Refusal} : orFault f (.next t) ≠ .refused r := by
  cases f <;> simp

theorem exec_call_overflow {s : State} (h : 16 ≤ s.sp.toNat) (nnn : Addr) : exec (.call nnn) s = .fault .stackOverflow :=
  if_pos h

/-- `SP` above its range matters to a call alone, which then overflows. -/
theorem exec_ne_refused (i : Instr) (s : State) (r : Refusal) : exec i s ≠ .refused r := by
  by_cases hsp : ∀ nnn, i = .call nnn → s.sp.toNat ≤ 16
  · rw [exec_eq hsp]; exact orFault_ne_refused
  · push Not at hsp
    obtain ⟨nnn, rfl, h⟩ := hsp
    rw [exec_call_overflow (Nat.le_of_lt h)]
    nofun

theorem step_ne_refused (s : State) (r : Refusal) : step s ≠ .refused r := by
  unfold step
  split
  · nofun
  · split
    · nofun
    · exact exec_ne_refused _ _ _

/-- Settles O13: without a fault the completed state is left, at the target that the passed range check admits. -/
theorem everyInstructionCompletes : Obligations.EveryInstructionCompletes := by
  refine ⟨fun i s hsp hf => ?_, step_ne_refused⟩
  have hnext : exec i s = .next (afterExec i s) := by rw [exec_eq fun _ _ => hsp, hf, orFault_none]
  obtain ⟨ht, -⟩ := exec_next hnext
  exact ⟨_, hnext, Nat.mod_eq_of_lt (Nat.lt_succ_of_le ht)⟩

end Sys2Proof.Machine

namespace Sys2Proof.Machine

/-! ### The step and what it reports (40 R90 to R95, 60 R170, R172) -/

theorem fetch_of_pc_ne {s : State} (h : s.pc ≠ 0xFFF#12) :
    fetch s = .ok (wordOf (s.mem.read s.pc.toNat) (s.mem.read (s.pc.toNat + 1))) := by
  rw [fetch_eq, if_neg h]

theorem step_of_pc_top {s : State} (h : s.pc = 0xFFF#12) : step s = .fault (.fetchOutOfRange 0xFFF) := by
  rw [step, fetch_eq, if_pos h]; rfl

/-- Settles O9: the fetch has two outcomes by `pc`, and the step three by the fetch and the decode. -/
theorem stepRunsTheDecodedInstruction : Obligations.StepRunsTheDecodedInstruction := by
  refine fun s => ⟨step_of_pc_top, ?_⟩
  rintro hpc w rfl
  have hw := fetch_of_pc_ne hpc
  exact ⟨step_of_undecodable hw, fun i hd => ⟨i.wf_all, step_of_decode hw hd⟩⟩

theorem waits_iff (i : Instr) (s : State) : waits i s = true ↔ (∃ x, i = .wkey x) ∧ s.NoKey := by
  cases i with
  | wkey x => simp [waits, State.lowestKey_none_iff]
  | _ => simp [waits]

/-- Settles O10: the completed state records no report, and its `BLOCKED` says whether the instruction waits. -/
theorem blockedIsSetExactlyByTheKeyWait : Obligations.BlockedIsSetExactlyByTheKeyWait := by
  intro i s t h
  obtain ⟨-, rfl⟩ := exec_next h
  exact ⟨rfl, waits_iff i s⟩

/-- An event that leaves a state as it is can be issued any number of times. -/
theorem runEvents_replicate_of_fixed {e : Event} {s : State} {r : Option Report} (h : deliver e s = .ok (s, r)) (n : Nat) :
    runEvents (List.replicate n e) s = .ok s := by
  induction n with
  | zero => rfl
  | succ n ih => rw [List.replicate_succ, runEvents_cons_of_ok h, ih]

theorem deliver_step_of_next {s t : State} (h : step s = .next t) :
    deliver .step s = .ok (t, t.report.map .undecodable) := by
  simp only [deliver, stepEvent, h]

theorem deliver_step_of_fault {s : State} {f : Fault} (h : step s = .fault f) :
    deliver .step s = .ok (s, some (.fault f)) := by
  simp only [deliver, stepEvent, h]

/-- Settles O14: the event keeps the state, so the next one finds the same fault. -/
theorem faultLeavesTheStateAndRepeats : Obligations.FaultLeavesTheStateAndRepeats := fun _ _ h =>
  have hd := deliver_step_of_fault h
  ⟨hd, runEvents_replicate_of_fixed hd⟩

/-- Settles O11: the report leaves `pc` and memory, so the steps after the first fetch the same word and change nothing more. -/
theorem undecodableWordStalls : Obligations.UndecodableWordStalls := by
  intro s w n hw hd
  have hw' : fetch { s with blocked := false, report := some (undecodable w) } = .ok w := (fetch_congr rfl rfl).trans hw
  rw [List.replicate_succ, runEvents_cons_of_ok (deliver_step_of_next (step_of_undecodable hw hd))]
  exact runEvents_replicate_of_fixed (deliver_step_of_next (step_of_undecodable hw' hd)) n

/-- Settles O28: the word decodes to the jump to `pc`, and the jump writes `pc` alone. -/
theorem selfJumpChangesNothing : Obligations.SelfJumpChangesNothing := by
  intro s h
  have hd : decodeWord (formatA 0x1#4 s.pc) = some (.jp s.pc) := decodeWord_encode (.jp s.pc)
  have hstep : step s = complete s.pc.toNat s := step_of_decode h hd
  rw [State.StepsCleanly, hstep]
  exact ⟨complete_addr_completes s.pc s, _, rfl, rfl⟩

/-! ### Reset and boot (10 R38, 70 R200 to R202) -/

/-- Settles O16: the event leaves the state of construction but for the draw counter, which no element of 10 R38 reads. -/
theorem resetEventRestoresEverything : Obligations.ResetEventRestoresEverything := fun s =>
  ⟨s.afterReset, rfl, resetLeavesTheStatedValues⟩

/-- Settles O17: no cell is listed and `SP` is 0. -/
theorem resetMeetsTheInvariant : Obligations.ResetMeetsTheInvariant := ⟨Memory.wf_nil, Nat.zero_le 16⟩

theorem deliver_load_of_le {bytes : List Byte} (h : bytes.length ≤ 3584) (s : State) :
    deliver (.load bytes) s = .ok (s.loadImage bytes, none) := if_pos (decide_eq_true h)

theorem State.loadImage_eq (s : State) (bytes : List Byte) :
    s.loadImage bytes = { s with mem := s.mem.writeBytes 0x200 bytes } := rfl

/-- Settles O20: `pc` is 0x200 after reset, and the two bytes there are the first two of the image. -/
theorem loadedImageRunsFromItsFirstWord : Obligations.LoadedImageRunsFromItsFirstWord := by
  intro hi lo rest i hlen hd
  have hlen' : (hi :: lo :: rest).length ≤ 3584 := by simp only [List.length_cons]; omega
  refine ⟨_, deliver_load_of_le hlen' _, step_of_decode ?_ hd⟩
  have hread := Memory.read_writeBytes [] Memory.wf_nil 0x200 (hi :: lo :: rest) (by omega)
  rw [fetch_of_pc_ne (show 0x200#12 ≠ 0xFFF#12 by decide)]
  simp [State.loadImage_eq, State.reset, hread]

/-! ### The invariant (10 R27, 20 R50) -/

theorem sp_lt_of_call_next {nnn : Addr} {s t : State} (h : exec (.call nnn) s = .next t) : s.sp.toNat < 16 := by
  by_contra hge
  rw [exec_call_overflow (Nat.not_lt.mp hge)] at h
  cases h

theorem sp_ne_zero_of_ret_next {s t : State} (h : exec .ret s = .next t) : s.sp.toNat ≠ 0 := by
  intro h0
  rw [show exec .ret s = .fault .stackUnderflow from if_pos h0] at h
  cases h

/-- The effect of an instruction that completes keeps `SP` in range: a call completes below 16, a return above 0. -/
theorem sp_effectOf_le {i : Instr} {s t : State} (hsp : s.sp.toNat ≤ 16) (h : exec i s = .next t) :
    (effectOf i s).sp.toNat ≤ 16 := by
  cases i with
  | call nnn =>
    have hlt := sp_lt_of_call_next h
    rw [effectOf, State.push_sp, sp_push hlt]
    exact hlt
  | ret =>
    rw [effectOf, State.pop_sp, sp_pop (sp_ne_zero_of_ret_next h)]
    omega
  | wkey x => rw [effectOf]; split <;> exact hsp
  | ldm x => rwa [effectOf, State.loadRegs_sp]
  | _ => exact hsp

/-- Only `Fx33` and `Fx55` store, and a store keeps the canonical form. -/
theorem mem_effectOf_wf {i : Instr} {s : State} (hm : s.mem.wf) : (effectOf i s).mem.wf := by
  cases i with
  | bcd x | stm x => exact Memory.writeBytes_wf _ hm _ _
  | wkey x => rw [effectOf]; split <;> exact hm
  | ldm x => rwa [effectOf, State.loadRegs_mem]
  | _ => exact hm

theorem step_inv {s t : State} (hs : s.Inv) (h : step s = .next t) : t.Inv := by
  obtain ⟨hm, hsp⟩ := hs
  obtain ⟨w, -, -, rfl⟩ | ⟨w, i, -, -, hi⟩ := step_next_cases h
  · exact ⟨hm, hsp⟩
  · obtain ⟨-, rfl⟩ := exec_next hi
    exact ⟨mem_effectOf_wf hm, sp_effectOf_le hsp hi⟩

/-- Settles O18: a report changes neither memory nor `SP`, and the effect of each instruction keeps both. -/
theorem stepKeepsTheInvariant : Obligations.StepKeepsTheInvariant := fun _ _ => step_inv

/-- What the step event leaves: the state before a fault, or the next state with its report. -/
theorem stepEvent_cases {s t : State} {r : Option Report} (h : deliver .step s = .ok (t, r)) :
    (t = s ∧ ∃ f, step s = .fault f ∧ r = some (.fault f)) ∨ (step s = .next t ∧ r = t.report.map .undecodable) := by
  cases hs : step s with
  | next u =>
    rw [deliver_step_of_next hs] at h
    cases h
    exact .inr ⟨rfl, rfl⟩
  | fault f =>
    rw [deliver_step_of_fault hs] at h
    cases h
    exact .inl ⟨rfl, f, rfl, rfl⟩
  | refused r => exact absurd hs (step_ne_refused s r)

/-- What each event can leave, one state per event but for the step. -/
def Event.Leaves (e : Event) (s t : State) : Prop :=
  match e with
  | .reset => t = s.afterReset
  | .load bytes => t = s.loadImage bytes
  | .step => t = s ∨ step s = .next t
  | .tick => t = s.tick
  | .keyPress k => t = s.setKey k true
  | .keyRelease k => t = s.setKey k false
  | .dirtyClear => t = s.setDirty false

theorem leaves_of_deliver {e : Event} {s t : State} {r : Option Report} (h : deliver e s = .ok (t, r)) : Event.Leaves e s t := by
  cases e with
  | step =>
    obtain ⟨ht, -⟩ | ⟨ht, -⟩ := stepEvent_cases h
    · exact .inl ht
    · exact .inr ht
  | load bytes | keyPress k | keyRelease k =>
    rw [deliver] at h
    split at h <;> cases h
    rfl
  | _ => cases h; rfl

theorem deliver_inv {e : Event} {s t : State} {r : Option Report} (hs : s.Inv) (h : deliver e s = .ok (t, r)) : t.Inv := by
  have ht := leaves_of_deliver h
  cases e with
  | reset => exact ht ▸ resetMeetsTheInvariant
  | load bytes => exact ht ▸ ⟨Memory.writeBytes_wf _ hs.1 _ _, hs.2⟩
  | step =>
    obtain rfl | hnext := ht
    · exact hs
    · exact step_inv hs hnext
  | _ => exact ht ▸ hs

/-- Settles O19: by induction on the events, each of which keeps the invariant. -/
theorem everyRunOfEventsKeepsTheInvariant : Obligations.EveryRunOfEventsKeepsTheInvariant := by
  intro es s t hs h
  induction es generalizing s with
  | nil => cases h; exact hs
  | cons e es ih =>
    cases he : deliver e s with
    | ok tr =>
      rw [runEvents_cons_of_ok he] at h
      exact ih _ (deliver_inv hs he) h
    | error r => rw [runEvents, he] at h; cases h

end Sys2Proof.Machine

namespace Sys2Proof.Machine

/-! ### Call and return (41 R100, R102, R103) -/

theorem sp_push_eq_ofNat (sp : BitVec 5) : sp + 1#5 = BitVec.ofNat 5 (sp.toNat + 1) := by
  rw [BitVec.ofNat_add, BitVec.ofNat_toNat, BitVec.setWidth_eq]

theorem sp_pop_eq_ofNat {sp : BitVec 5} (h : sp.toNat ≠ 0) : sp - 1#5 = BitVec.ofNat 5 (sp.toNat - 1) := by
  rw [← sp_pop h, BitVec.ofNat_toNat, BitVec.setWidth_eq]

theorem State.push_eq (s : State) (a : Addr) :
    s.push a = { s with stack := s.stack.setIfInBounds s.sp.toNat a, sp := BitVec.ofNat 5 (s.sp.toNat + 1) } := by
  rw [← sp_push_eq_ofNat]; rfl

theorem State.pop_eq {s : State} (h : s.sp.toNat ≠ 0) : s.pop = { s with sp := BitVec.ofNat 5 (s.sp.toNat - 1) } := by
  rw [← sp_pop_eq_ofNat h]; rfl

theorem exec_call_of_lt {s : State} (h : s.sp.toNat < 16) (nnn : Addr) :
    exec (.call nnn) s = complete nnn.toNat (s.push s.pc) := if_neg (Nat.not_le.mpr h)

theorem exec_ret_of_ne {s : State} (h : s.sp.toNat ≠ 0) :
    exec .ret s = goTo ((s.stackAt (s.sp.toNat - 1)).toNat + 2) s.pop := if_neg h

/-- Settles O22: the guard splits at 16, and below it the call is the push and a transfer to an address. -/
theorem callPushesItsOwnAddress : Obligations.CallPushesItsOwnAddress := by
  refine fun s nnn => ⟨fun h => ?_, fun h => exec_call_overflow (Nat.le_of_eq h.symm) nnn⟩
  rw [exec_call_of_lt h, State.push_eq]
  exact complete_addr_completes nnn _

/-- Settles O23: the guard splits at 0, and above it the return goes to the top entry plus 2 with the pop as its effect. -/
theorem returnPopsAndAddsTwo : Obligations.ReturnPopsAndAddsTwo := by
  refine fun s => ⟨fun hpos _ a ha => ?_, fun h => if_pos h⟩
  have hne : s.sp.toNat ≠ 0 := Nat.ne_of_gt hpos
  have htop : s.stackAt (s.sp.toNat - 1) = a := by rw [State.stackAt, ha]; rfl
  rw [exec_ret_of_ne hne, htop, State.pop_eq hne]
  exact goTo_endsAt _ _

/-- Settles O24: the call leaves its address as the entry at the old `SP`, which is the entry the return pops. -/
theorem returnContinuesAfterTheCall : Obligations.ReturnContinuesAfterTheCall := by
  intro s t u nnn hcall hpc husp hentry
  have hlt := sp_lt_of_call_next hcall
  rw [exec_call_of_lt hlt, complete_next_iff] at hcall
  have hsp : u.sp = s.sp + 1#5 := by rw [husp, hcall]; rfl
  have hne : u.sp.toNat ≠ 0 := by rw [hsp, sp_push hlt]; exact Nat.succ_ne_zero _
  have htop : u.stackAt (u.sp.toNat - 1) = s.pc := by
    rw [hsp, sp_push hlt, Nat.add_sub_cancel, hentry, hcall]
    exact (s.stackAt_push s.pc _ hlt).trans (if_pos rfl)
  have hpop : u.pop = { u with sp := s.sp } := by
    rw [State.pop, hsp, BitVec.add_sub_cancel]
  rw [exec_ret_of_ne hne, htop, hpop]
  exact (goTo_endsAt _ _).1 hpc

/-! ### Jumps with offset and skips (41 R104 to R109, 45 R160, R161) -/

/-- A skip in the terms claims are stated in, its condition as a proposition. -/
theorem skipIf_endsAt {c : Bool} {p : Prop} [Decidable p] (h : c = true ↔ p) (s : State) :
    EndsAt (skipIf c s) (if p then s.pc.toNat + 4 else s.pc.toNat + 2) s := by
  rw [← if_congr h rfl rfl]
  exact goTo_endsAt _ s

/-- Settles O25: the meaning is one checked transfer, to the unreduced sum. -/
theorem jumpWithOffsetUsesV0 : Obligations.JumpWithOffsetUsesV0 := fun s nnn =>
  goTo_endsAt (nnn.toNat + s.offset) s

/-- Settles O26: both are `skipIf` of a comparison with the immediate. -/
theorem immediateSkips : Obligations.ImmediateSkips := fun s _ _ =>
  ⟨skipIf_endsAt beq_iff_eq s, skipIf_endsAt bne_iff_ne s⟩

/-- Settles O27: both are `skipIf` of a comparison of registers. -/
theorem registerSkips : Obligations.RegisterSkips := fun s _ _ =>
  ⟨skipIf_endsAt beq_iff_eq s, skipIf_endsAt bne_iff_ne s⟩

theorem keySkip_of_le {s : State} {x : Nibble} (h : (s.reg x).toNat ≤ 15) (want : Bool) :
    keySkip want x s = skipIf (s.key (s.reg x).toNat == want) s := if_neg (Nat.not_lt.mpr h)

theorem keySkip_of_gt {s : State} {x : Nibble} (h : 15 < (s.reg x).toNat) (want : Bool) :
    keySkip want x s = .fault (.keyIndexOutOfRange (s.reg x).toNat) := if_pos h

theorem exec_skp (x : Nibble) (s : State) : exec (.skp x) s = keySkip true x s := rfl

theorem exec_sknp (x : Nibble) (s : State) : exec (.sknp x) s = keySkip false x s := rfl

/-- Settles O48: the index check splits at 15, and below it both are `skipIf` of the key's state. -/
theorem keySkips : Obligations.KeySkips := by
  rintro s x k rfl
  refine ⟨fun h => ?_, fun h => ⟨keySkip_of_gt h true, keySkip_of_gt h false⟩⟩
  rw [exec_skp, exec_sknp, keySkip_of_le h, keySkip_of_le h]
  exact ⟨skipIf_endsAt beq_iff_eq s, skipIf_endsAt beq_iff_eq s⟩

/-! ### Instructions that fall through -/

/-- Settles O29: each is one register write that falls through. -/
theorem loadImmediateAndMove : Obligations.LoadImmediateAndMove := fun s x y kk =>
  ⟨fallThrough_endsAt s (s.setReg x kk), fallThrough_endsAt s (s.setReg x (s.reg y))⟩

theorem ofNat_add_mod (a b : Byte) : BitVec.ofNat 8 ((a.toNat + b.toNat) % 256) = a + b := by
  rw [← BitVec.toNat_add a b, BitVec.ofNat_toNat, BitVec.setWidth_eq]

/-- Settles O30: one register write that falls through; the sum of bytes is the sum modulo 256. -/
theorem addImmediateWritesNoFlag : Obligations.AddImmediateWritesNoFlag := fun s x kk => by
  rw [ofNat_add_mod]
  exact fallThrough_endsAt s (s.setReg x (s.reg x + kk))

/-- Settles O31: each is one register write that falls through. -/
theorem logicWritesNoFlag : Obligations.LogicWritesNoFlag := fun s x y =>
  ⟨fallThrough_endsAt s (s.setReg x (s.reg x ||| s.reg y)), fallThrough_endsAt s (s.setReg x (s.reg x &&& s.reg y)),
    fallThrough_endsAt s (s.setReg x (s.reg x ^^^ s.reg y))⟩

/-- Settles O36: the write of the masked draw and the count of one draw, falling through. -/
theorem randomByteIsMasked : Obligations.RandomByteIsMasked := fun s x kk =>
  fallThrough_endsAt s (s.drawn.setReg x (s.rand8 &&& kk))

/-- Settles O37: the product of a byte and 5 fits 12 bits, so the one address with that value is what is written. -/
theorem loadAddressAndFontAddress : Obligations.LoadAddressAndFontAddress := by
  intro s nnn x
  have hfits : (BitVec.ofNat 12 ((s.reg x).toNat * 5)).toNat = (s.reg x).toNat * 5 := by
    have hbyte := (s.reg x).isLt
    exact Nat.mod_eq_of_lt (by omega)
  refine ⟨fallThrough_endsAt s (s.setI nnn), fun a ha => ?_, _, hfits⟩
  rw [BitVec.eq_of_toNat_eq (ha.trans hfits.symm)]
  exact fallThrough_endsAt s (s.setI _)

/-- Settles O44: the clear and the flag are the effect, which falls through. -/
theorem clearScreenSetsDirty : Obligations.ClearScreenSetsDirty := fun s =>
  fallThrough_endsAt s ((s.setFb 0#2048).setDirty true)

/-- Settles O51: each is one write of a register or a timer, falling through. -/
theorem timerAccess : Obligations.TimerAccess := fun s x =>
  ⟨fallThrough_endsAt s (s.setReg x s.dt), fallThrough_endsAt s (s.setDt (s.reg x)), fallThrough_endsAt s (s.setSt (s.reg x))⟩

/-! ### The key wait (45 R162) -/

theorem exec_wkey_of_noKey {s : State} (h : s.NoKey) (x : Nibble) : exec (.wkey x) s = hold s := by
  simp only [exec, execWkey, s.lowestKey_none_iff.mpr h]

theorem exec_wkey_of_lowestPressed {s : State} {k : Nat} (h : s.LowestPressed k) (x : Nibble) :
    exec (.wkey x) s = fallThrough s (s.setReg x (BitVec.ofNat 8 k)) := by
  simp only [exec, execWkey, (s.lowestKey_some_iff k).mpr h]

/-- Settles O49: the search for a key answers none or the least one; the two cases of the wait follow it. -/
theorem keyWaitTakesTheLowestKey : Obligations.KeyWaitTakesTheLowestKey := by
  refine fun s x => ⟨fun h => ?_, fun k h => ?_⟩
  · rw [exec_wkey_of_noKey h]
    exact ⟨_, rfl, rfl⟩
  · rw [exec_wkey_of_lowestPressed h]
    exact fallThrough_endsAt s _

end Sys2Proof.Machine

namespace Sys2Proof.Machine

/-! ### Instructions that write VF and then a result (42 R126 to R134, 00 R13) -/

section
variable {f : Bool} {x : Nibble} {g : State → Byte} {s : State} {b c : Byte}

/-- Where the destination is not VF, the order of the two writes does not show. -/
theorem flagThenReg_endsAt_of_ne (hx : x ≠ 0xF#4) (hb : b = g (s.setFlag f)) (hc : c = if f then 1#8 else 0#8) :
    EndsAt (fallThrough s (flagThenReg f x g s)) (s.pc.toNat + 2)
      { s with v := (s.v.set x.toNat b x.isLt).set 15 c } := by
  have hne : (15 : Nat) ≠ x.toNat := fun h => hx (BitVec.eq_of_toNat_eq h.symm)
  subst hb hc
  rw [Vector.set_comm _ _ hne.symm]
  exact fallThrough_endsAt s _

/-- Where the destination is VF, the result overwrites the flag. -/
theorem flagThenReg_vf_endsAt (hb : b = g (s.setFlag f)) :
    EndsAt (fallThrough s (flagThenReg f 0xF#4 g s)) (s.pc.toNat + 2) { s with v := s.v.set 15 b } := by
  subst hb
  have hv : (flagThenReg f 0xF#4 g s) = { s with v := s.v.set 15 (g (s.setFlag f)) } := by
    simp [flagThenReg, State.setFlag, State.setReg]
  rw [← hv]
  exact fallThrough_endsAt s _

theorem reg_setFlag_of_ne (hx : x ≠ 0xF#4) : (s.setFlag f).reg x = s.reg x := by rw [State.reg_setFlag, if_neg hx]

theorem reg_setFlag_vf : (s.setFlag f).reg 0xF#4 = if f then 1#8 else 0#8 := by rw [State.reg_setFlag, if_pos rfl]

end

/-- A flag as the number the tables of 42 R133 and R134 compute with. -/
theorem toNat_flag (p : Prop) [Decidable p] : (if decide p then 1#8 else 0#8 : Byte).toNat = if p then 1 else 0 := by
  by_cases h : p <;> simp [h]

theorem ofNat_flag (p : Prop) [Decidable p] : BitVec.ofNat 8 (if p then 1 else 0) = if decide p then 1#8 else 0#8 := by
  by_cases h : p <;> simp [h]

theorem ofNat_sub_mod (a b : Byte) : BitVec.ofNat 8 ((a.toNat + 256 - b.toNat) % 256) = a - b := by
  have hb := b.isLt
  apply BitVec.eq_of_toNat_eq
  rw [BitVec.toNat_sub, BitVec.toNat_ofNat]
  omega

theorem ofNat_half (a : Byte) : BitVec.ofNat 8 (a.toNat / 2) = a >>> 1 := by
  apply BitVec.eq_of_toNat_eq
  have ha := a.isLt
  simp [Nat.shiftRight_eq_div_pow]
  omega

theorem ofNat_double (a : Byte) : BitVec.ofNat 8 (2 * a.toNat % 256) = a <<< 1 := by
  apply BitVec.eq_of_toNat_eq
  simp [Nat.shiftLeft_eq, Nat.mul_comm]

theorem ofNat_lowBit (a : Byte) : BitVec.ofNat 8 (a.toNat % 2) = if lowBit a then 1#8 else 0#8 := by
  rw [lowBit, BitVec.getLsbD, Nat.testBit_zero, ← ofNat_flag]
  split
  · next h => rw [h]
  · next h => rw [Nat.mod_two_ne_one.mp h]

theorem ofNat_highBit (a : Byte) : BitVec.ofNat 8 (a.toNat / 128) = if highBit a then 1#8 else 0#8 := by
  have ha := a.isLt
  rw [highBit, BitVec.getLsbD, Nat.testBit_eq_decide_div_mod_eq, ← ofNat_flag]
  split
  · next h => rw [show a.toNat / 128 = 1 by omega]
  · next h => rw [show a.toNat / 128 = 0 by omega]

/-- Settles O32: neither operand is VF, so the results are those of the old registers. -/
theorem addAndSubtractWithFlag : Obligations.AddAndSubtractWithFlag := by
  rintro s x y a b hx hy rfl rfl
  refine ⟨flagThenReg_endsAt_of_ne hx ?_ ?_, flagThenReg_endsAt_of_ne hx ?_ ?_, flagThenReg_endsAt_of_ne hx ?_ ?_⟩
  · rw [reg_setFlag_of_ne hx, reg_setFlag_of_ne hy, ofNat_add_mod]
  · simp only [carryAdd, decide_eq_true_eq]
  · rw [reg_setFlag_of_ne hx, reg_setFlag_of_ne hy, ofNat_sub_mod]
  · simp only [greater, decide_eq_true_eq]
  · rw [reg_setFlag_of_ne hx, reg_setFlag_of_ne hy, ofNat_sub_mod]
  · simp only [greater, decide_eq_true_eq]

/-- Settles O33: the one operand is not VF, so the result is that of the old register, and `y` is not read. -/
theorem shiftsIgnoreTheSecondRegister : Obligations.ShiftsIgnoreTheSecondRegister := by
  rintro s x y a hx rfl
  refine ⟨flagThenReg_endsAt_of_ne hx ?_ (ofNat_lowBit _), flagThenReg_endsAt_of_ne hx ?_ (ofNat_highBit _)⟩
  · rw [reg_setFlag_of_ne hx, ofNat_half]
  · rw [reg_setFlag_of_ne hx, ofNat_double]

/-- Settles O34: the second operand of the result is the new VF. -/
theorem flagRegisterAsSource : Obligations.FlagRegisterAsSource := by
  rintro s x a o hx rfl rfl
  refine ⟨?_, ?_, ?_⟩
  all_goals
    rintro c rfl
    refine flagThenReg_endsAt_of_ne hx ?_ (ofNat_flag _)
    rw [reg_setFlag_of_ne hx, reg_setFlag_vf, ← toNat_flag]
  · exact ofNat_add_mod _ _
  · exact ofNat_sub_mod _ _
  · exact ofNat_sub_mod _ _

/-- Settles O35: the operand that is VF is the new VF. -/
theorem flagRegisterAsDestination : Obligations.FlagRegisterAsDestination := by
  rintro s y o b rfl rfl
  refine ⟨fun hy => ?_, ?_, ?_, ?_, ?_, ?_⟩
  · refine ⟨?_, ?_, ?_⟩
    all_goals
      rintro c rfl
      refine flagThenReg_vf_endsAt ?_
      rw [reg_setFlag_of_ne hy, reg_setFlag_vf, ← toNat_flag]
    · exact ofNat_add_mod _ _
    · exact ofNat_sub_mod _ _
    · exact ofNat_sub_mod _ _
  all_goals
    refine flagThenReg_vf_endsAt ?_
    rw [reg_setFlag_vf]
  · simp only [carryAdd, Nat.two_mul, decide_eq_true_eq]; split <;> rfl
  · rw [BitVec.sub_self]
  · rw [BitVec.sub_self]
  · split <;> rfl
  · rw [← ofNat_highBit]
    apply BitVec.eq_of_toNat_eq
    simp [Nat.shiftLeft_eq, Nat.mul_comm]

theorem ofNat_addr_add_mod (a : Addr) (b : Byte) : BitVec.ofNat 12 ((a.toNat + b.toNat) % 4096) = a + b.setWidth 12 := by
  apply BitVec.eq_of_toNat_eq
  have hb := b.isLt
  rw [BitVec.toNat_add, BitVec.toNat_ofNat, BitVec.toNat_setWidth]
  omega

theorem execAdda_endsAt (x : Nibble) (s : State) :
    EndsAt (exec (.adda x) s) (s.pc.toNat + 2)
      { s with v := s.v.set 15 (if carryAddr s.ireg (s.reg x) then 1#8 else 0#8),
               ireg := (s.setFlag (carryAddr s.ireg (s.reg x))).addrSum x } :=
  fallThrough_endsAt s _

/-- Settles O38: the sum reads `V[x]` after the flag is written, which is the old `V[x]` or the flag itself. -/
theorem addToAddressRegister : Obligations.AddToAddressRegister := by
  rintro s x c rfl
  have h := execAdda_endsAt x s
  rw [State.addrSum, State.setFlag_ireg] at h
  refine ⟨fun hx => ?_, ?_⟩
  · rwa [reg_setFlag_of_ne hx, ← ofNat_addr_add_mod, carryAddr, ← ofNat_flag] at h
  · rintro rfl
    rwa [reg_setFlag_vf, ← ofNat_addr_add_mod, carryAddr, toNat_flag, ← ofNat_flag] at h

end Sys2Proof.Machine

namespace Sys2Proof.Machine

/-! ### Blocks of memory (20 R52, R56, 43 R143 to R146) -/

/-- A byte of a stored block reads as the byte of the list. -/
theorem Memory.read_writeBytes_at {m : Memory} (h : m.wf) {a : Nat} {bs : List Byte} (ha : a + bs.length ≤ 0x1000) {k : Nat}
    {b : Byte} (hk : bs[k]? = some b) : (m.writeBytes a bs).read (a + k) = b := by
  rw [Memory.read_writeBytes m h a bs ha, if_pos (Nat.le_add_right a k), Nat.add_sub_cancel_left, hk]; rfl

/-- A block instruction whose two range checks pass. -/
theorem checkPc_checkMem_of_le {t a : Nat} (ht : t ≤ 0xFFF) (ha : a ≤ 0xFFF) (k : Result) : checkPc t (checkMem a k) = k := by
  rw [checkPc_of_le ht, checkMem_of_le ha]

theorem exec_bcd_of_le {s : State} (hpc : s.pc.toNat + 2 ≤ 0xFFF) {x : Nibble} (ha : s.effAddr 2 ≤ 0xFFF) :
    exec (.bcd x) s = complete s.nextPc (s.store (s.effAddr 0) (decimalDigits (s.reg x))) :=
  checkPc_checkMem_of_le hpc ha _

theorem exec_stm_of_le {s : State} (hpc : s.pc.toNat + 2 ≤ 0xFFF) {x : Nibble} (ha : s.effAddr x.toNat ≤ 0xFFF) :
    exec (.stm x) s = complete s.nextPc (s.store (s.effAddr 0) (s.firstRegs x)) :=
  checkPc_checkMem_of_le hpc ha _

theorem exec_ldm_of_le {s : State} (hpc : s.pc.toNat + 2 ≤ 0xFFF) {x : Nibble} (ha : s.effAddr x.toNat ≤ 0xFFF) :
    exec (.ldm x) s = complete s.nextPc (s.loadRegs (s.effAddr 0) (x.toNat + 1)) :=
  checkPc_checkMem_of_le hpc ha _

/-- Settles O39: the three digits are the stored block. -/
theorem bcdStoresThreeDigits : Obligations.BcdStoresThreeDigits := by
  intro s x hwf hpc ha
  have hlen : s.effAddr 0 + (decimalDigits (s.reg x)).length ≤ 0x1000 := Nat.succ_le_succ ha
  have hread {k : Nat} {b : Byte} := Memory.read_writeBytes_at hwf hlen (k := k) (b := b)
  refine ⟨_, exec_bcd_of_le hpc ha, hread (k := 0) rfl, hread (k := 1) rfl, hread (k := 2) rfl, fun a hout => ?_, rfl⟩
  exact Memory.read_writeBytes_other _ hwf _ _ hlen a hout

theorem firstRegs_getElem?_toNat (s : State) {x r : Nibble} (h : r.toNat ≤ x.toNat) :
    (s.firstRegs x)[r.toNat]? = some (s.reg r) := by
  rw [s.firstRegs_getElem? x r.toNat h, BitVec.ofNat_toNat, BitVec.setWidth_eq]

theorem firstRegs_fits {s : State} {x : Nibble} (h : s.effAddr x.toNat ≤ 0xFFF) :
    s.effAddr 0 + (s.firstRegs x).length ≤ 0x1000 := by
  rw [s.firstRegs_length]
  exact Nat.succ_le_succ h

/-- What `Fx55` stores: the byte at `I + r` is `V[r]`. -/
theorem read_store_firstRegs {s : State} (hwf : s.mem.wf) {x r : Nibble} (ha : s.effAddr x.toNat ≤ 0xFFF)
    (hr : r.toNat ≤ x.toNat) : (s.store (s.effAddr 0) (s.firstRegs x)).mem.read (s.effAddr r.toNat) = s.reg r :=
  Memory.read_writeBytes_at hwf (firstRegs_fits ha) (firstRegs_getElem?_toNat s hr)

/-- Settles O40: the registers are the stored block. -/
theorem storeRegisters : Obligations.StoreRegisters := by
  intro s x hwf hpc ha
  refine ⟨_, exec_stm_of_le hpc ha, fun r => read_store_firstRegs hwf ha, fun a hout => ?_, rfl⟩
  refine Memory.read_writeBytes_other _ hwf _ _ (firstRegs_fits ha) a (hout.imp_right fun h => ?_)
  rw [s.firstRegs_length]
  exact h

/-- What `Fx65` loads: `V[r]` up to `x` is the byte at `I + r`. -/
theorem reg_loadRegs_effAddr (s : State) (x r : Nibble) :
    (s.loadRegs (s.effAddr 0) (x.toNat + 1)).reg r = if r.toNat ≤ x.toNat then s.mem.read (s.effAddr r.toNat) else s.reg r :=
  (s.reg_loadRegs _ _ x.isLt r).trans (if_congr Nat.lt_succ_iff rfl rfl)

/-- Settles O41: the load changes `v` alone, register by register. -/
theorem loadRegisters : Obligations.LoadRegisters := by
  intro s x hpc ha
  exact ⟨_, exec_ldm_of_le hpc ha, reg_loadRegs_effAddr s x, by simp⟩

theorem exec_stm_next {s t : State} {x : Nibble} (h : exec (.stm x) s = .next t) :
    s.effAddr x.toNat ≤ 0xFFF ∧ t.ireg = s.ireg ∧ t.mem = (s.store (s.effAddr 0) (s.firstRegs x)).mem := by
  rw [exec, execStm, checkPc_next_iff, checkMem_next_iff, complete_next_iff] at h
  obtain ⟨-, ha, rfl⟩ := h
  exact ⟨ha, rfl, rfl⟩

/-- Settles O42: the load reads the addresses that the store wrote. -/
theorem storeThenLoadRestoresRegisters : Obligations.StoreThenLoadRestoresRegisters := by
  intro s t u x hwf hstm hmem hireg hpc
  obtain ⟨ha, hti, htm⟩ := exec_stm_next hstm
  have hu (k : Nat) : u.effAddr k = s.effAddr k := by rw [State.effAddr, hireg, hti]; rfl
  refine ⟨_, exec_ldm_of_le hpc (by rwa [hu]), fun r hr => ?_⟩
  refine (reg_loadRegs_effAddr u x r).trans ?_
  rw [if_pos hr, hu, hmem, htm, read_store_firstRegs hwf ha hr]

/-- Settles O43: the next word lies at `I`, where the first two registers were stored. -/
theorem storeIsSeenByTheNextFetch : Obligations.StoreIsSeenByTheNextFetch := by
  intro s x hwf hx hi ha
  have htop : s.ireg.toNat + x.toNat ≤ 0xFFF := ha
  have hpc : (BitVec.ofNat 12 (s.pc.toNat + 2)).toNat = s.ireg.toNat := by
    rw [← hi, BitVec.ofNat_toNat, BitVec.setWidth_eq]
  refine ⟨_, exec_stm_of_le (by omega) ha, ?_⟩
  rw [fetch_of_le (by simp only [State.nextPc_eq, hpc]; omega)]
  simp only [State.nextPc_eq, hpc]
  congr 2
  · exact read_store_firstRegs hwf ha (r := 0x0#4) (Nat.zero_le _)
  · exact read_store_firstRegs hwf ha (r := 0x1#4) hx

/-! ### Host events and outputs (60 R183, R184, R186, R189) -/

/-- Settles O59: the length check splits at 3584, and below it the image is the stored block. -/
theorem loadCopiesTheImage : Obligations.LoadCopiesTheImage := by
  refine fun s bytes hwf => ⟨fun hlen => ?_, fun hlen => ?_⟩
  · have hfits : 0x200 + bytes.length ≤ 0x1000 := by omega
    exact ⟨_, deliver_load_of_le hlen s, fun j b hb => Memory.read_writeBytes_at hwf hfits hb,
      Memory.read_writeBytes_other _ hwf _ _ hfits, rfl⟩
  · rw [deliver, imageOk, if_neg (by simpa using hlen)]

theorem deliver_keyPress_of_lt {k : Nat} (h : k < 16) (s : State) : deliver (.keyPress k) s = .ok (s.setKey k true, none) :=
  if_pos (decide_eq_true h)

theorem deliver_keyRelease_of_lt {k : Nat} (h : k < 16) (s : State) :
    deliver (.keyRelease k) s = .ok (s.setKey k false, none) :=
  if_pos (decide_eq_true h)

theorem State.setKey_setKey (s : State) (k : Nat) (b : Bool) : (s.setKey k b).setKey k b = s.setKey k b := by
  rw [State.setKey, State.setKey, Vector.setIfInBounds_setIfInBounds]

/-- Settles O58: the index check splits at 16, and below it each event writes one key, a write that can be repeated. -/
theorem keyEventsSetAndClearOneKey : Obligations.KeyEventsSetAndClearOneKey := by
  refine fun s k => ⟨fun h => ⟨?_, ?_⟩, fun h => ?_⟩
  · refine ⟨_, deliver_keyPress_of_lt h s, fun j _ => s.key_setKey k j true h, rfl, ?_⟩
    rw [deliver_keyPress_of_lt h, State.setKey_setKey]
  · refine ⟨_, deliver_keyRelease_of_lt h s, fun j _ => s.key_setKey k j false h, rfl, ?_⟩
    rw [deliver_keyRelease_of_lt h, State.setKey_setKey]
  · have hno : ¬ keyIndexOk k = true := by simpa [keyIndexOk] using h
    exact ⟨if_neg hno, if_neg hno⟩

/-- Settles O60: the index check splits at 2048, and `blocked` shows the field. -/
theorem outputsReadTheState : Obligations.OutputsReadTheState := fun _ _ =>
  ⟨fun h => if_pos h, fun h => if_neg (Nat.not_lt.mpr h), rfl⟩

end Sys2Proof.Machine

namespace Sys2Proof.Machine

/-! ### Sprite cells (44 R153, R154) -/

theorem cellIndex_column (vx vy : Byte) (row col : Nat) : cellIndex vx vy row col % 64 = (vx.toNat + col) % 64 := by
  rw [cellIndex]; omega

theorem cellIndex_row (vx vy : Byte) (row col : Nat) :
    cellIndex vx vy row col / 64 = ((vy.toNat + row) + (vx.toNat + col) / 64) % 32 := by
  rw [cellIndex]; omega

/-- Two bits of one sprite lie less than 15 rows of 64 cells apart, so they agree modulo 2048 only if they are the same. -/
theorem cellIndex_inj {vx vy : Byte} {row col row' col' : Nat} (hr : row < 15) (hr' : row' < 15) (hc : col < 8) (hc' : col' < 8)
    (h : cellIndex vx vy row col = cellIndex vx vy row' col') : row = row' ∧ col = col' := by
  rw [cellIndex, cellIndex] at h
  omega

/-- Settles O47: column, row and injectivity of the one cell function. -/
theorem spriteBitsLandOnDistinctScreenCells : Obligations.SpriteBitsLandOnDistinctScreenCells := fun vx vy row col =>
  ⟨rfl, cellIndex_column vx vy row col, cellIndex_row vx vy row col, fun _ _ => cellIndex_inj⟩

theorem rowCells_nodup (vx vy : Byte) {row : Nat} (hr : row < 15) (b : Byte) : (rowCells vx vy row b).Nodup := by
  refine List.Nodup.map_on (fun c hc c' hc' h => ?_) (List.nodup_range.filter _)
  rw [List.mem_filter, List.mem_range] at hc hc'
  exact (cellIndex_inj hr hr hc.1 hc'.1 h).2

theorem rowCells_disjoint (vx vy : Byte) {row row' : Nat} (hr : row < 15) (hr' : row' < 15) (hne : row ≠ row') (b b' : Byte) :
    (rowCells vx vy row b).Disjoint (rowCells vx vy row' b') := by
  intro p hp hp'
  obtain ⟨c, hc, -, rfl⟩ := mem_rowCells.mp hp
  obtain ⟨c', hc', -, heq⟩ := mem_rowCells.mp hp'
  exact hne (cellIndex_inj hr hr' hc hc' heq).1

/-- No two set bits of a sprite target one cell. -/
theorem spriteCells_nodup (m : Memory) (a : Nat) (vx vy : Byte) {n : Nat} (hn : n ≤ 15) : (spriteCells m a vx vy n).Nodup := by
  refine List.nodup_flatMap.mpr ⟨fun row hr => ?_, ?_⟩
  · exact rowCells_nodup vx vy (Nat.lt_of_lt_of_le (List.mem_range.mp hr) hn) _
  · refine List.nodup_range.pairwise_of_forall_ne fun row hr row' hr' hne => ?_
    rw [List.mem_range] at hr hr'
    exact rowCells_disjoint vx vy (Nat.lt_of_lt_of_le hr hn) (Nat.lt_of_lt_of_le hr' hn) hne _ _

theorem State.drawTargets_nodup (s : State) (x y n : Nibble) : (s.drawTargets x y n).Nodup :=
  spriteCells_nodup _ _ _ _ (Nat.le_of_lt_succ n.isLt)

theorem State.drawTargets_lt (s : State) (x y n : Nibble) : ∀ p ∈ s.drawTargets x y n, p < 2048 :=
  fun _ => spriteCells_lt

/-! ### Drawing (44 R151, R154) -/

section
variable (s : State) (x y n : Nibble)

/-- A cell after drawing: inverted where a set bit targets it. -/
theorem State.cell_drawSprite (p : Nat) : (s.drawSprite x y n).cell p = (s.cell p ^^ decide (p ∈ s.drawTargets x y n)) :=
  drawCells_getLsbD _ (s.drawTargets_lt x y n) (s.drawTargets_nodup x y n) p s.fb false

/-- VF after drawing: some targeted cell was set. -/
theorem State.vf_drawSprite :
    (s.drawSprite x y n).reg 0xF#4 = if (s.drawTargets x y n).any s.cell then 1#8 else 0#8 := by
  rw [State.reg_drawSprite, if_pos rfl, drawCells_hit _ (s.drawTargets_lt x y n) (s.drawTargets_nodup x y n), Bool.false_or]
  rfl

theorem State.reg_drawSprite_of_ne {r : Nibble} (h : r ≠ 0xF#4) : (s.drawSprite x y n).reg r = s.reg r := by
  rw [State.reg_drawSprite, if_neg h]

end

section
variable {s : State} {x y n : Nibble} {p : Nat}

theorem State.cell_drawSprite_of_targets (h : s.SpriteTargets (s.reg x) (s.reg y) n.toNat p) :
    (s.drawSprite x y n).cell p = !s.cell p := by
  rw [State.cell_drawSprite, decide_eq_true ((s.mem_drawTargets x y n p).mpr h), Bool.xor_true]

theorem State.cell_drawSprite_of_not_targets (h : ¬ s.SpriteTargets (s.reg x) (s.reg y) n.toNat p) :
    (s.drawSprite x y n).cell p = s.cell p := by
  rw [State.cell_drawSprite, decide_eq_false (mt (s.mem_drawTargets x y n p).mp h), Bool.xor_false]

theorem State.vf_drawSprite_of_hit (h : s.SpriteTargets (s.reg x) (s.reg y) n.toNat p) (hp : s.cell p = true) :
    (s.drawSprite x y n).reg 0xF#4 = 1#8 := by
  rw [State.vf_drawSprite, if_pos (List.any_eq_true.mpr ⟨p, (s.mem_drawTargets x y n p).mpr h, hp⟩)]

theorem State.vf_drawSprite_of_no_hit (h : ∀ p < 2048, s.SpriteTargets (s.reg x) (s.reg y) n.toNat p → s.cell p = false) :
    (s.drawSprite x y n).reg 0xF#4 = 0#8 := by
  rw [State.vf_drawSprite, if_neg]
  rw [List.any_eq_true]
  rintro ⟨p, hp, hcell⟩
  rw [h p (s.drawTargets_lt x y n p hp) ((s.mem_drawTargets x y n p).mp hp)] at hcell
  cases hcell

end

theorem checkRows_of_le {n : Nat} {s : State} (h : n = 0 ∨ s.effAddr (n - 1) ≤ 0xFFF) (k : Result) : checkRows n s k = k := by
  unfold checkRows
  split
  · rfl
  · next hn => exact checkMem_of_le (h.resolve_left hn) k

/-- Settles O45: the checks pass, and the completed state shows what `drawSprite` does to a targeted cell, to another and to
VF. -/
theorem drawInvertsTheTargetedCells : Obligations.DrawInvertsTheTargetedCells := by
  intro s x y n hpc hrows
  have hrows' : n.toNat = 0 ∨ s.effAddr (n.toNat - 1) ≤ 0xFFF :=
    hrows.imp (fun h => by rw [h]; rfl) fun h => by rw [State.effAddr]; omega
  have hexec : exec (.drw x y n) s = complete s.nextPc (s.drawSprite x y n) :=
    (checkPc_of_le hpc _).trans (checkRows_of_le hrows' _)
  exact ⟨_, hexec, fun p _ => State.cell_drawSprite_of_targets, fun p _ => State.cell_drawSprite_of_not_targets,
    fun ⟨p, _, ht, hp⟩ => State.vf_drawSprite_of_hit ht hp, State.vf_drawSprite_of_no_hit,
    fun r => s.reg_drawSprite_of_ne x y n, rfl⟩

theorem exec_drw_next {s t : State} {x y n : Nibble} (h : exec (.drw x y n) s = .next t) :
    t = { s.drawSprite x y n with pc := BitVec.ofNat 12 (s.pc.toNat + 2), blocked := false, report := none } :=
  (exec_next h).2

/-- A second draw finds the same sprite at the same place, unless VF held a coordinate. -/
theorem spriteTargets_after_drw {s t : State} {x y n : Nibble} (hx : x ≠ 0xF#4) (hy : y ≠ 0xF#4)
    (h : exec (.drw x y n) s = .next t) (p : Nat) :
    t.SpriteTargets (t.reg x) (t.reg y) n.toNat p ↔ s.SpriteTargets (s.reg x) (s.reg y) n.toNat p := by
  obtain rfl := exec_drw_next h
  rw [← s.reg_drawSprite_of_ne x y n hx, ← s.reg_drawSprite_of_ne x y n hy]
  rfl

/-- Settles O46: both draws invert the same cells, and the second finds each of them as the first left it. -/
theorem drawingTwiceRestoresTheFramebuffer : Obligations.DrawingTwiceRestoresTheFramebuffer := by
  intro s t u x y n hx hy hst htu
  have htargets := spriteTargets_after_drw hx hy hst
  have hflip {p : Nat} (h : s.SpriteTargets (s.reg x) (s.reg y) n.toNat p) : t.cell p = !s.cell p := by
    rw [exec_drw_next hst]; exact State.cell_drawSprite_of_targets h
  have hcell (p : Nat) : u.cell p = s.cell p := by
    have hu : u.cell p = (t.drawSprite x y n).cell p := by rw [exec_drw_next htu]; rfl
    by_cases h : s.SpriteTargets (s.reg x) (s.reg y) n.toNat p
    · rw [hu, State.cell_drawSprite_of_targets ((htargets p).mpr h), hflip h, Bool.not_not]
    · rw [hu, State.cell_drawSprite_of_not_targets (mt (htargets p).mp h), exec_drw_next hst]
      exact State.cell_drawSprite_of_not_targets h
  have hvf : u.reg 0xF#4 = (t.drawSprite x y n).reg 0xF#4 := by rw [exec_drw_next htu]; rfl
  refine ⟨BitVec.eq_of_getLsbD_eq fun p _ => hcell p, ?_, fun h => ?_⟩
  · rintro ⟨p, -, h, hp⟩
    rw [hvf, State.vf_drawSprite_of_hit ((htargets p).mpr h) (by rw [hflip h, hp]; rfl)]
  · rw [hvf, State.vf_drawSprite_of_no_hit fun p hp htp => ?_]
    have h' := (htargets p).mp htp
    rw [hflip h', h p hp h']; rfl

/-! ### The key wait among ticks (45 R162 (c), (d)) -/

theorem ofNat_sub_toNat_sub (b : Byte) (m n : Nat) :
    BitVec.ofNat 8 ((BitVec.ofNat 8 (b.toNat - m)).toNat - n) = BitVec.ofNat 8 (b.toNat - (m + n)) := by
  rw [BitVec.toNat_ofNat, Nat.mod_eq_of_lt (Nat.lt_of_le_of_lt (Nat.sub_le _ _) b.isLt), Nat.sub_sub]

/-- Settles O50: by induction on the events. A step holds and a tick counts down; neither touches `pc`, memory or a key. -/
theorem keyWaitHoldsWhileTicksGoOn : Obligations.KeyWaitHoldsWhileTicksGoOn := by
  intro es s w x hw hd hk hes
  induction es generalizing s with
  | nil => exact ⟨s, rfl, by simp⟩
  | cons e es ih =>
    have hes' : ∀ e ∈ es, e = .step ∨ e = .tick := fun e' h => hes e' (List.mem_cons_of_mem e h)
    obtain rfl | rfl := hes e List.mem_cons_self
    · have hstep : step s = .next { s with blocked := true, report := none } :=
        (step_of_decode hw hd).trans (exec_wkey_of_noKey hk x)
      rw [runEvents_cons_of_ok (deliver_step_of_next hstep), List.count_cons_of_ne (by decide)]
      exact ih { s with blocked := true, report := none } ((fetch_congr rfl rfl).trans hw) hk hes'
    · rw [runEvents_cons_of_ok (deliver_tick s), List.count_cons_self, Nat.add_comm]
      obtain ⟨t, ht, heq⟩ := ih s.tick ((fetch_congr rfl rfl).trans hw) hk hes'
      refine ⟨t, ht, heq.trans ?_⟩
      rw [State.tick_eq]
      simp only [ofNat_sub_toNat_sub]

end Sys2Proof.Machine

namespace Sys2Proof.Machine

/-! ### The frame of each operation, element by element (10 R39) -/

section
variable {e : Element} {s t u : State}

theorem Element.Same.trans (h : e.Same s t) (h' : e.Same t u) : e.Same s u := by
  cases e <;> exact Eq.trans h' h

theorem Element.same_setReg {x : Nibble} {b : Byte} (h : e ≠ .v x) : e.Same s (s.setReg x b) := by
  cases e with
  | v r => exact (s.reg_setReg x r b).trans (if_neg fun hr => h (congrArg _ hr))
  | _ => rfl

theorem Element.same_setFlag {f : Bool} (h : e ≠ .v 0xF#4) : e.Same s (s.setFlag f) := Element.same_setReg h

theorem Element.same_flagThenReg {f : Bool} {x : Nibble} {g : State → Byte} (hx : e ≠ .v x) (hf : e ≠ .v 0xF#4) :
    e.Same s (flagThenReg f x g s) := (Element.same_setFlag hf).trans (Element.same_setReg hx)

theorem Element.same_setI {a : Addr} (h : e ≠ .ireg) : e.Same s (s.setI a) := by
  cases e with
  | ireg => contradiction
  | _ => rfl

theorem Element.same_setDt {b : Byte} (h : e ≠ .dt) : e.Same s (s.setDt b) := by
  cases e with
  | dt => contradiction
  | _ => rfl

theorem Element.same_setSt {b : Byte} (h : e ≠ .st) : e.Same s (s.setSt b) := by
  cases e with
  | st => contradiction
  | _ => rfl

theorem Element.same_setFb {f : BitVec 2048} (h : ∀ p, e ≠ .fb p) : e.Same s (s.setFb f) := by
  cases e with
  | fb p => exact absurd rfl (h p)
  | _ => rfl

theorem Element.same_setDirty {d : Bool} (h : e ≠ .dirty) : e.Same s (s.setDirty d) := by
  cases e with
  | dirty => contradiction
  | _ => rfl

theorem Element.same_drawn (h : e ≠ .draws) : e.Same s s.drawn := by
  cases e with
  | draws => contradiction
  | _ => rfl

theorem Element.same_pop (h : e ≠ .sp) : e.Same s s.pop := by
  cases e with
  | sp => contradiction
  | _ => rfl

theorem Element.same_push {a : Addr} (hlt : s.sp.toNat < 16) (hsp : e ≠ .sp) (h : e ≠ .stack s.sp.toNat) :
    e.Same s (s.push a) := by
  cases e with
  | sp => contradiction
  | stack k => exact (s.stackAt_push a k hlt).trans (if_neg fun hk => h (congrArg _ hk))
  | _ => rfl

theorem Element.same_loadRegs {a n : Nat} (hn : n ≤ 16) (h : ∀ r : Nibble, r.toNat < n → e ≠ .v r) :
    e.Same s (s.loadRegs a n) := by
  rw [State.loadRegs_eq]
  cases e with
  | v r => exact (s.reg_loadRegs a n hn r).trans (if_neg fun hr => h r hr rfl)
  | _ => rfl

theorem Element.same_store {a : Nat} {bs : List Byte} (hwf : ∀ c, e = .mem c → s.mem.wf) (hfit : a + bs.length ≤ 0x1000)
    (h : ∀ c, e = .mem c → c < a ∨ a + bs.length ≤ c) : e.Same s (s.store a bs) := by
  cases e with
  | mem c => exact Memory.read_writeBytes_other _ (hwf c rfl) a bs hfit c (h c rfl)
  | _ => rfl

/-- `pc`, `BLOCKED` and the report are no elements. -/
theorem Element.same_afterExec {i : Instr} (h : e.Same s (effectOf i s)) : e.Same s (afterExec i s) := by
  cases e <;> exact h

end

/-- An element that the instruction may not write is not the one it writes. -/
theorem ne_of_mayWrite {i : Instr} {s : State} {e e' : Element} (h : mayWrite i s e = false) (h' : mayWrite i s e' = true) :
    e ≠ e' := by
  rintro rfl
  rw [h] at h'
  cases h'

theorem effAddr_le_of_bcd_next {s t : State} {x : Nibble} (h : exec (.bcd x) s = .next t) : s.effAddr 2 ≤ 0xFFF := by
  rw [exec, execBcd, checkPc_next_iff, checkMem_next_iff] at h
  exact h.2.1

/-- An address that is not among the stored ones lies before or after the block. -/
theorem lt_or_le_of_not_within {s : State} {k c : Nat} (h : ¬ (s.effAddr 0 ≤ c ∧ c ≤ s.effAddr k)) :
    c < s.effAddr 0 ∨ s.effAddr 0 + (k + 1) ≤ c := by
  rw [State.effAddr, State.effAddr] at *
  omega

/-- The effect of an instruction that completes leaves every element that the matrix of 10 R39 does not let it write. The
canonical form matters to the bytes of memory alone. -/
theorem effectOf_same {i : Instr} {s t : State} {e : Element} (hwf : ∀ a, e = .mem a → s.mem.wf) (hexec : exec i s = .next t)
    (h : mayWrite i s e = false) : e.Same s (effectOf i s) := by
  have ne {e' : Element} (h' : mayWrite i s e' = true) : e ≠ e' := ne_of_mayWrite h h'
  cases i with
  | cls => exact (Element.same_setFb fun p => ne rfl).trans (Element.same_setDirty (ne rfl))
  | ret => exact Element.same_pop (ne rfl)
  | call nnn => exact Element.same_push (sp_lt_of_call_next hexec) (ne rfl) (ne (by simp [mayWrite]))
  | ldi x _ | addi x _ | mov x _ | or x _ | and x _ | xor x _ | lddt x =>
    exact Element.same_setReg (ne (by simp [mayWrite, writesReg]))
  | rnd x _ => exact (Element.same_drawn (ne rfl)).trans (Element.same_setReg (ne (by simp [mayWrite, writesReg])))
  | wkey x =>
    rw [effectOf]
    split
    · cases e <;> rfl
    · exact Element.same_setReg (ne (by simp [mayWrite, writesReg]))
  | add x _ | sub x _ | shr x _ | subn x _ | shl x _ =>
    exact Element.same_flagThenReg (ne (by simp [mayWrite, writesReg])) (ne (by simp [mayWrite, writesReg]))
  | lda _ | font _ => exact Element.same_setI (ne rfl)
  | adda x => exact (Element.same_setFlag (ne rfl)).trans (Element.same_setI (ne rfl))
  | drw x y n =>
    exact ((Element.same_setFb fun p => ne rfl).trans (Element.same_setFlag (ne rfl))).trans (Element.same_setDirty (ne rfl))
  | stdt _ => exact Element.same_setDt (ne rfl)
  | stst _ => exact Element.same_setSt (ne rfl)
  | bcd x =>
    have ha := effAddr_le_of_bcd_next hexec
    refine Element.same_store hwf (Nat.succ_le_succ ha) fun c hc => ?_
    subst hc
    exact lt_or_le_of_not_within (of_decide_eq_false h)
  | stm x =>
    obtain ⟨ha, -, -⟩ := exec_stm_next hexec
    refine Element.same_store hwf (firstRegs_fits ha) fun c hc => ?_
    subst hc
    rw [s.firstRegs_length]
    exact lt_or_le_of_not_within (of_decide_eq_false h)
  | ldm x => exact Element.same_loadRegs x.isLt fun r hr => ne (by simpa [mayWrite, writesReg] using Nat.lt_succ_iff.mp hr)
  | jp _ | jpv0 _ | sei _ _ | snei _ _ | ser _ _ | sner _ _ | skp _ | sknp _ => cases e <;> rfl

theorem exec_same {i : Instr} {s t : State} {e : Element} (hwf : ∀ a, e = .mem a → s.mem.wf) (hexec : exec i s = .next t)
    (h : mayWrite i s e = false) : e.Same s t := by
  obtain ⟨-, rfl⟩ := exec_next hexec
  exact Element.same_afterExec (effectOf_same hwf hexec h)

/-- Settles O52: the completed state is the instruction's effect, and each operation it is made of writes its own elements. -/
theorem instructionsWriteOnlyWhatTheMatrixAllows : Obligations.InstructionsWriteOnlyWhatTheMatrixAllows :=
  fun _ _ _ _ hwf => exec_same fun _ _ => hwf

/-! ### Timers and DIRTY (45 R166, 70 R212) -/

section
variable {i : Instr} {s t : State}

theorem mayWrite_dt_iff : mayWrite i s .dt = true ↔ ∃ x, i = .stdt x := by cases i <;> simp [mayWrite]

theorem mayWrite_st_iff : mayWrite i s .st = true ↔ ∃ x, i = .stst x := by cases i <;> simp [mayWrite]

theorem mayWrite_dirty_iff : mayWrite i s .dirty = true ↔ i = .cls ∨ ∃ x y n, i = .drw x y n := by
  cases i <;> simp [mayWrite]

theorem exec_dt (h : exec i s = .next t) : t.dt = s.dt ∨ ∃ x, i = .stdt x ∧ t.dt = s.reg x := by
  by_cases hw : mayWrite i s .dt = true
  · obtain ⟨x, rfl⟩ := mayWrite_dt_iff.mp hw
    obtain ⟨-, rfl⟩ := exec_next h
    exact .inr ⟨x, rfl, rfl⟩
  · exact .inl (exec_same (e := .dt) nofun h (Bool.eq_false_of_not_eq_true hw))

theorem exec_st (h : exec i s = .next t) : t.st = s.st ∨ ∃ x, i = .stst x ∧ t.st = s.reg x := by
  by_cases hw : mayWrite i s .st = true
  · obtain ⟨x, rfl⟩ := mayWrite_st_iff.mp hw
    obtain ⟨-, rfl⟩ := exec_next h
    exact .inr ⟨x, rfl, rfl⟩
  · exact .inl (exec_same (e := .st) nofun h (Bool.eq_false_of_not_eq_true hw))

theorem exec_dirty_iff (h : exec i s = .next t) :
    t.dirty = true ↔ s.dirty = true ∨ i = .cls ∨ ∃ x y n, i = .drw x y n := by
  rw [← mayWrite_dirty_iff (s := s)]
  by_cases hw : mayWrite i s .dirty = true
  · have hset : t.dirty = true := by
      obtain ⟨-, rfl⟩ := exec_next h
      obtain rfl | ⟨x, y, n, rfl⟩ := mayWrite_dirty_iff.mp hw <;> rfl
    simp [hset, hw]
  · have hkeep : t.dirty = s.dirty := exec_same (e := .dirty) nofun h (Bool.eq_false_of_not_eq_true hw)
    simp [hkeep, hw]

end

/-- Settles O53: of the other events the step alone can touch a timer, and there the frame of the instruction decides. -/
theorem timersChangeOnlyByTheirOwnEvents : Obligations.TimersChangeOnlyByTheirOwnEvents := by
  intro e s t r h htick hreset
  have ht := leaves_of_deliver h
  cases e with
  | tick | reset => contradiction
  | load _ | keyPress _ | keyRelease _ | dirtyClear =>
    rw [show t = _ from ht]
    exact ⟨.inl rfl, .inl rfl⟩
  | step =>
    obtain rfl | hnext := ht
    · exact ⟨.inl rfl, .inl rfl⟩
    obtain ⟨w, -, -, rfl⟩ | ⟨w, i, hw, hd, hi⟩ := step_next_cases hnext
    · exact ⟨.inl rfl, .inl rfl⟩
    · refine ⟨(exec_dt hi).imp_right ?_, (exec_st hi).imp_right ?_⟩
      all_goals
        rintro ⟨x, rfl, hx⟩
        exact ⟨rfl, w, x, hw, hd, hx⟩

/-- Settles O54: a step without report is an instruction, whose frame decides; every other event shows its DIRTY at once. -/
theorem dirtyFlagProtocol : Obligations.DirtyFlagProtocol := by
  intro e s t r h
  cases e with
  | step =>
    obtain ⟨rfl, f, -, rfl⟩ | ⟨hnext, rfl⟩ := stepEvent_cases h
    · simp
    obtain ⟨w, -, -, rfl⟩ | ⟨w, i, hw, hd, hi⟩ := step_next_cases hnext
    · simp
    · rw [exec_dirty_iff hi, (blockedIsSetExactlyByTheKeyWait i s t hi).1]
      simp [hw, hd]
  | reset | dirtyClear =>
    have hclear : t.dirty = false := by rw [show t = _ from leaves_of_deliver h]; rfl
    simp [hclear]
  | load _ | tick | keyPress _ | keyRelease _ =>
    have hkeep : t.dirty = s.dirty := by rw [show t = _ from leaves_of_deliver h]; rfl
    simp [hkeep]

end Sys2Proof.Machine

namespace Sys2Proof.Machine

/-! ### What only the host reads (10 R29 to R31) -/

/-- A state with other values in the elements that only the host reads. -/
def State.withStatus (s : State) (b : Bool) (r : Option Undecodable) (d : Bool) (c : Byte) : State :=
  { s with blocked := b, report := r, dirty := d, st := c }

section
variable (s : State) (b : Bool) (r : Option Undecodable) (d : Bool) (c : Byte)

theorem faultOf_withStatus (i : Instr) : faultOf i (s.withStatus b r d c) = faultOf i s := by
  cases i <;> rfl

theorem targetOf_withStatus (i : Instr) : targetOf i (s.withStatus b r d c) = targetOf i s := by
  cases i <;> rfl

theorem waits_withStatus (i : Instr) : waits i (s.withStatus b r d c) = waits i s := by
  cases i <;> rfl

theorem loadRegs_withStatus (a n : Nat) : (s.withStatus b r d c).loadRegs a n = (s.loadRegs a n).withStatus b r d c := by
  induction n with
  | zero => rfl
  | succ n ih => rw [State.loadRegs, ih, State.loadRegs, State.loadRegs_eq]; rfl

/-- No effect reads the status: it writes DIRTY or ST with a value of its own, or leaves it. -/
theorem effectOf_withStatus (i : Instr) :
    ∃ d' c', effectOf i (s.withStatus b r d c) = (effectOf i s).withStatus b r d' c' := by
  cases i with
  | cls | drw _ _ _ => exact ⟨true, c, rfl⟩
  | stst x => exact ⟨d, s.reg x, rfl⟩
  | ldm x => exact ⟨d, c, loadRegs_withStatus s b r d c _ _⟩
  | wkey x =>
    refine ⟨d, c, ?_⟩
    simp only [effectOf, show (s.withStatus b r d c).lowestKey = s.lowestKey from rfl]
    split <;> rfl
  | _ => exact ⟨d, c, rfl⟩

/-- The outcome of an instruction under another status: the same fault, or the same state but for DIRTY and ST. -/
theorem exec_withStatus (i : Instr) :
    (∀ f, exec i s = .fault f → exec i (s.withStatus b r d c) = .fault f) ∧
    (∀ t, exec i s = .next t → ∃ d' c', exec i (s.withStatus b r d c) = .next { t with dirty := d', st := c' }) := by
  by_cases hsp : ∀ nnn, i = .call nnn → s.sp.toNat ≤ 16
  · obtain ⟨d', c', heffect⟩ := effectOf_withStatus s b r d c i
    rw [exec_eq hsp, exec_eq (s := s.withStatus b r d c) hsp, faultOf_withStatus]
    cases faultOf i s with
    | some f => exact ⟨fun _ h => h, fun _ h => (by cases h)⟩
    | none =>
      refine ⟨fun _ h => (by cases h), fun t ht => ⟨d', c', ?_⟩⟩
      cases ht
      rw [orFault_none, afterExec, heffect, targetOf_withStatus, waits_withStatus]
      rfl
  · push Not at hsp
    obtain ⟨nnn, rfl, h⟩ := hsp
    rw [exec_call_overflow (Nat.le_of_lt h), exec_call_overflow (s := s.withStatus b r d c) (Nat.le_of_lt h)]
    exact ⟨fun _ h => h, fun _ h => (by cases h)⟩

end

/-- Settles O55: fetch and decode read `pc` and memory, and the instruction's checks and effect read no status. -/
theorem statusOutputsNeverSteerTheCore : Obligations.StatusOutputsNeverSteerTheCore := by
  intro s b d r c
  have hfetch : fetch (s.withStatus b r d c) = fetch s := fetch_congr rfl rfl
  cases hw : fetch s with
  | error g =>
    have hstep {u : State} (h : fetch u = .error g) : step u = .fault g := by rw [step, h]; rfl
    rw [hstep hw]
    exact ⟨fun f h => (hstep (hfetch.trans hw)).trans h, fun _ h => (by cases h)⟩
  | ok w =>
    cases hd : decodeWord w with
    | none =>
      rw [step_of_undecodable hw hd]
      refine ⟨fun _ h => (by cases h), fun t ht => ⟨d, c, ?_⟩⟩
      cases ht
      exact step_of_undecodable (hfetch.trans hw) hd
    | some i =>
      rw [step_of_decode hw hd, ← State.withStatus, step_of_decode (hfetch.trans hw) hd]
      exact exec_withStatus s b r d c i

end Sys2Proof.Machine
